-- ==== Sys2Proof/Word.lean ====
section
/-! DEFINITION. The word types of `cpu_core` (00_scope.md R5, R6: XLEN 8, PCW 16, ADDRW 16).
They are abbreviations of `BitVec`, so that the library's lemmas apply. -/

namespace Sys2Proof

/-- An 8-bit value: a register, a memory cell, an opcode, an immediate, a port number (R5, R10, R26, R65). -/
abbrev Byte := BitVec 8

/-- A 16-bit value: the program counter, a data address, a jump target (R5, R13, R65). -/
abbrev Word := BitVec 16

end Sys2Proof
end

