-- ==== Sys2Proof/Config.lean ====
section
/-! DEFINITION. What an implementation of `cpu_core` fixes (00_scope.md R5): the names an opcode map
speaks of, the type of the parameter `OPCODE_MAP`, and the parameters of reset and of the memory's size.
The spec leaves no value undefined (93_implementation_defined.md, end of part 1), so there is no free
constant here; the default of `OPCODE_MAP` stands in Decode.lean. -/

namespace Sys2Proof

/-- The 43 instruction names of the Instruction Set Definition (30_encoding.md R63, in ascending opcode
order). An opcode map gives each of them a byte. -/
inductive Mnemonic where
  | nop
  | inrB
  | dcrB
  | mviB
  | inrC
  | dcrC
  | mviC
  | ral
  | rar
  | cma
  | sta
  | lda
  | inrA
  | dcrA
  | mviA
  | movBC
  | movBA
  | movCB
  | movCA
  | hlt
  | movAB
  | movAC
  | addB
  | addC
  | subB
  | subC
  | anaB
  | anaC
  | xraB
  | xraC
  | oraB
  | oraC
  | jnz
  | jmp
  | ret
  | jz
  | call
  | outPort
  | inPort
  | ani
  | xri
  | ori
  | jm
  deriving DecidableEq, Repr

/-- Every mnemonic, in the order of the table of R63. -/
def Mnemonic.all : List Mnemonic :=
  [.nop, .inrB, .dcrB, .mviB, .inrC, .dcrC, .mviC, .ral, .rar, .cma, .sta, .lda, .inrA, .dcrA, .mviA] ++
  [.movBC, .movBA, .movCB, .movCA, .hlt, .movAB, .movAC, .addB, .addC, .subB, .subC, .anaB, .anaC, .xraB, .xraC] ++
  [.oraB, .oraC, .jnz, .jmp, .ret, .jz, .call, .outPort, .inPort, .ani, .xri, .ori, .jm]

/-- The parameter `OPCODE_MAP` (R64, D1): which byte stands for which instruction. -/
abbrev OpcodeMap := Mnemonic → Byte

/-- The seven opcode values the source attests through its §8 program (R64). -/
def Config.attestedOpcodes : List (Mnemonic × Byte) :=
  [(.mviA, 0x3E#8), (.subB, 0x90#8), (.outPort, 0xD3#8), (.ret, 0xC9#8), (.mviB, 0x06#8),
   (.call, 0xCD#8), (.hlt, 0x76#8)]

/-- `MEMSIZE`: addresses 0x0000 to 0xFFFF (R5, R26). -/
def Config.memSize : Nat := 65536

/-- `RESET_PC` (R16; the spec's decision D5). -/
def Config.resetPc : Word := 0x0000#16

/-- The Sign half of `RESET_FLAGS` (R21; the spec's decision D5). -/
def Config.resetSign : Bool := false

/-- The Zero half of `RESET_FLAGS` (R21; the spec's decision D5): 0 although `A` is 0x00. -/
def Config.resetZero : Bool := false

end Sys2Proof
end

