-- ==== Sys2Proof/Syntax.lean ====
section
/-! DEFINITION. The instructions of `cpu_core`: one constructor per row of spec/opcode_table.json, in
the table's order (30_encoding.md R63). A register is selected by the opcode itself (R61), so only the
operand byte `op8` (format I8) or the operand word `op16` (format A16) is an argument (R60, R65). -/

namespace Sys2Proof

/-- The 43 instructions (R63). -/
inductive Instr where
  /-- `NOP`, format N (R142). -/
  | nop
  /-- `INR_B`, format N (R96). -/
  | inrB
  /-- `DCR_B`, format N (R98). -/
  | dcrB
  /-- `MVI_B`, format I8 (R117). -/
  | mviB (op8 : Byte)
  /-- `INR_C`, format N (R97). -/
  | inrC
  /-- `DCR_C`, format N (R99). -/
  | dcrC
  /-- `MVI_C`, format I8 (R118). -/
  | mviC (op8 : Byte)
  /-- `RAL`, format N (R143). -/
  | ral
  /-- `RAR`, format N (R144). -/
  | rar
  /-- `CMA`, format N (R93). -/
  | cma
  /-- `STA`, format A16 (R120). -/
  | sta (op16 : Word)
  /-- `LDA`, format A16 (R119). -/
  | lda (op16 : Word)
  /-- `INR_A`, format N (R94). -/
  | inrA
  /-- `DCR_A`, format N (R95). -/
  | dcrA
  /-- `MVI_A`, format I8 (R116). -/
  | mviA (op8 : Byte)
  /-- `MOV_BC`, format N (R113). -/
  | movBC
  /-- `MOV_BA`, format N (R112). -/
  | movBA
  /-- `MOV_CB`, format N (R115). -/
  | movCB
  /-- `MOV_CA`, format N (R114). -/
  | movCA
  /-- `HLT`, format N (R145). -/
  | hlt
  /-- `MOV_AB`, format N (R110). -/
  | movAB
  /-- `MOV_AC`, format N (R111). -/
  | movAC
  /-- `ADD_B`, format N (R80). -/
  | addB
  /-- `ADD_C`, format N (R81). -/
  | addC
  /-- `SUB_B`, format N (R82). -/
  | subB
  /-- `SUB_C`, format N (R83). -/
  | subC
  /-- `ANA_B`, format N (R84). -/
  | anaB
  /-- `ANA_C`, format N (R85). -/
  | anaC
  /-- `XRA_B`, format N (R90). -/
  | xraB
  /-- `XRA_C`, format N (R91). -/
  | xraC
  /-- `ORA_B`, format N (R87). -/
  | oraB
  /-- `ORA_C`, format N (R88). -/
  | oraC
  /-- `JNZ`, format A16 (R127). -/
  | jnz (op16 : Word)
  /-- `JMP`, format A16 (R125). -/
  | jmp (op16 : Word)
  /-- `RET`, format N (R130). -/
  | ret
  /-- `JZ`, format A16 (R126). -/
  | jz (op16 : Word)
  /-- `CALL`, format A16 (R129). -/
  | call (op16 : Word)
  /-- `OUT`, format I8 (R141). -/
  | outPort (op8 : Byte)
  /-- `IN`, format I8 (R140). -/
  | inPort (op8 : Byte)
  /-- `ANI`, format I8 (R86). -/
  | ani (op8 : Byte)
  /-- `XRI`, format I8 (R92). -/
  | xri (op8 : Byte)
  /-- `ORI`, format I8 (R89). -/
  | ori (op8 : Byte)
  /-- `JM`, format A16 (R128). -/
  | jm (op16 : Word)
  deriving DecidableEq, Repr

end Sys2Proof
end

