-- ==== Sys2Proof/WellFormed.lean ====
section
/-! DEFINITION. What may be ill-formed before the machine runs: an opcode map, and the bytes the Loader
is given. Of an instruction as syntax nothing can be: its operands have the widths of their fields, and
every value of `op8` and `op16` is legal for every instruction that has the operand (30_encoding.md R65). -/

namespace Sys2Proof

/-- Every instruction term is well formed: no operand value is reserved (R65, R67: "operand bytes are
never checked"). -/
abbrev Instr.wf (_ : Instr) : Prop := True

/-- No two mnemonics share an opcode byte: decode is a function of the opcode (R62, D1 "any injective
map"). -/
abbrev OpcodeMap.injective (map : OpcodeMap) : Prop :=
  (Mnemonic.all.map map).Nodup

/-- The seven opcode values of the source stand as it attests them (R64). -/
abbrev OpcodeMap.attested (map : OpcodeMap) : Prop :=
  ∀ row ∈ Config.attestedOpcodes, map row.1 = row.2

/-- A legal value of the parameter `OPCODE_MAP` (R64, D1): injective, and fixed for the attested rows. -/
abbrev OpcodeMap.wf (map : OpcodeMap) : Prop :=
  OpcodeMap.injective map ∧ OpcodeMap.attested map

/-- What `loadProgram` accepts: at most 65536 bytes (70_reset_and_hazards.md R183, D4). -/
abbrev imageWf (bytes : List Byte) : Prop :=
  bytes.length ≤ Config.memSize

end Sys2Proof
end

