-- ==== Sys2Proof/Decode.lean ====
section
/-! DEFINITION. The Instruction Set Definition and the decoder built on it, then the encoder
(30_encoding.md R60 to R68). Decode is total on any window of bytes and refuses an unassigned opcode by
name (R67); the opcode map is a parameter (R64, D1), `opcodeMap` the spec's table. -/

namespace Sys2Proof

/-! ### Bytes and words (little-endian, 20_memory.md R42) -/

/-- Bits 7:0 of a word. -/
def loByte (v : Word) : Byte := v.extractLsb' 0 8

/-- Bits 15:8 of a word. -/
def hiByte (v : Word) : Byte := v.extractLsb' 8 8

/-- The concatenation of a high and a low byte (R6). -/
def wordOf (hi lo : Byte) : Word := hi ++ lo

/-! ### The Instruction Set Definition -/

/-- The three operand shapes (R60): no operand, an 8-bit operand, a 16-bit operand. -/
inductive Shape where
  | n
  | i8
  | a16
  deriving DecidableEq, Repr

/-- Encoded size in bytes (R60, R61). -/
def Shape.size : Shape → Nat
  | .n => 1
  | .i8 => 2
  | .a16 => 3

/-- Column "PC" of R63: an advance by a fixed amount, an overwrite, or an overwrite if taken and an
advance by 3 if not. -/
inductive PcRule where
  | advance (count : Nat)
  | overwrite
  | conditional
  deriving DecidableEq, Repr

/-- Column "format" of R63. -/
def Mnemonic.shape : Mnemonic → Shape
  | .nop => .n
  | .inrB => .n
  | .dcrB => .n
  | .mviB => .i8
  | .inrC => .n
  | .dcrC => .n
  | .mviC => .i8
  | .ral => .n
  | .rar => .n
  | .cma => .n
  | .sta => .a16
  | .lda => .a16
  | .inrA => .n
  | .dcrA => .n
  | .mviA => .i8
  | .movBC => .n
  | .movBA => .n
  | .movCB => .n
  | .movCA => .n
  | .hlt => .n
  | .movAB => .n
  | .movAC => .n
  | .addB => .n
  | .addC => .n
  | .subB => .n
  | .subC => .n
  | .anaB => .n
  | .anaC => .n
  | .xraB => .n
  | .xraC => .n
  | .oraB => .n
  | .oraC => .n
  | .jnz => .a16
  | .jmp => .a16
  | .ret => .n
  | .jz => .a16
  | .call => .a16
  | .outPort => .i8
  | .inPort => .i8
  | .ani => .i8
  | .xri => .i8
  | .ori => .i8
  | .jm => .a16

/-- Column "PC" of R63. A number of its own beside the size: `XRI` is encoded in 2 bytes and advances by
1 (R66). -/
def Mnemonic.pcRule : Mnemonic → PcRule
  | .nop => .advance 1
  | .inrB => .advance 1
  | .dcrB => .advance 1
  | .mviB => .advance 2
  | .inrC => .advance 1
  | .dcrC => .advance 1
  | .mviC => .advance 2
  | .ral => .advance 1
  | .rar => .advance 1
  | .cma => .advance 1
  | .sta => .advance 3
  | .lda => .advance 3
  | .inrA => .advance 1
  | .dcrA => .advance 1
  | .mviA => .advance 2
  | .movBC => .advance 1
  | .movBA => .advance 1
  | .movCB => .advance 1
  | .movCA => .advance 1
  | .hlt => .advance 1
  | .movAB => .advance 1
  | .movAC => .advance 1
  | .addB => .advance 1
  | .addC => .advance 1
  | .subB => .advance 1
  | .subC => .advance 1
  | .anaB => .advance 1
  | .anaC => .advance 1
  | .xraB => .advance 1
  | .xraC => .advance 1
  | .oraB => .advance 1
  | .oraC => .advance 1
  | .jnz => .conditional
  | .jmp => .overwrite
  | .ret => .overwrite
  | .jz => .conditional
  | .call => .overwrite
  | .outPort => .advance 2
  | .inPort => .advance 2
  | .ani => .advance 2
  | .xri => .advance 1
  | .ori => .advance 2
  | .jm => .conditional

/-- `OPCODE_MAP` as the spec gives it (column "opcode" of R63). Seven values are the source's (R64); the
other 36 are the spec's decision D1, PRESUMED from the Intel 8080 (log 1). -/
def opcodeMap : OpcodeMap
  | .nop => 0x00#8
  | .inrB => 0x04#8
  | .dcrB => 0x05#8
  | .mviB => 0x06#8
  | .inrC => 0x0C#8
  | .dcrC => 0x0D#8
  | .mviC => 0x0E#8
  | .ral => 0x17#8
  | .rar => 0x1F#8
  | .cma => 0x2F#8
  | .sta => 0x32#8
  | .lda => 0x3A#8
  | .inrA => 0x3C#8
  | .dcrA => 0x3D#8
  | .mviA => 0x3E#8
  | .movBC => 0x41#8
  | .movBA => 0x47#8
  | .movCB => 0x48#8
  | .movCA => 0x4F#8
  | .hlt => 0x76#8
  | .movAB => 0x78#8
  | .movAC => 0x79#8
  | .addB => 0x80#8
  | .addC => 0x81#8
  | .subB => 0x90#8
  | .subC => 0x91#8
  | .anaB => 0xA0#8
  | .anaC => 0xA1#8
  | .xraB => 0xA8#8
  | .xraC => 0xA9#8
  | .oraB => 0xB0#8
  | .oraC => 0xB1#8
  | .jnz => 0xC2#8
  | .jmp => 0xC3#8
  | .ret => 0xC9#8
  | .jz => 0xCA#8
  | .call => 0xCD#8
  | .outPort => 0xD3#8
  | .inPort => 0xDB#8
  | .ani => 0xE6#8
  | .xri => 0xEE#8
  | .ori => 0xF6#8
  | .jm => 0xFA#8

/-! ### Decode -/

/-- The bytes a fetch interprets: byte `k` of the instruction is at fetch address `pc + k` (R61). The
source's fourth byte is never interpreted (20_memory.md R48, D20). -/
structure Window where
  b0 : Byte
  b1 : Byte
  b2 : Byte
  deriving DecidableEq, Repr

/-- The 8-bit operand: byte 1 (R61, R65). -/
def Window.op8 (w : Window) : Byte := w.b1

/-- The 16-bit operand: byte 2 high, byte 1 low (R61, R65). -/
def Window.op16 (w : Window) : Word := wordOf w.b2 w.b1

/-- A list of bytes as a window; what is missing reads 0x00, as the padding does (20_memory.md R47). -/
def Window.ofBytes (bytes : List Byte) : Window :=
  ⟨bytes.getD 0 0x00#8, bytes.getD 1 0x00#8, bytes.getD 2 0x00#8⟩

/-- Why a window is no instruction. -/
inductive DecodeReject where
  /-- Byte 0 is the opcode of no instruction (R67). -/
  | unassignedOpcode (opcode : Byte)
  deriving DecidableEq, Repr

/-- Which instruction name a map gives a byte to, if any (R62: the opcode byte alone decides). -/
def OpcodeMap.find (map : OpcodeMap) (opcode : Byte) : Option Mnemonic :=
  Mnemonic.all.find? (fun m => map m == opcode)

/-- The instruction of a mnemonic with the operands its shape names, taken from a window (R61, R65). -/
def Mnemonic.withOperands : Mnemonic → Window → Instr
  | .nop, _ => .nop
  | .inrB, _ => .inrB
  | .dcrB, _ => .dcrB
  | .mviB, w => .mviB w.op8
  | .inrC, _ => .inrC
  | .dcrC, _ => .dcrC
  | .mviC, w => .mviC w.op8
  | .ral, _ => .ral
  | .rar, _ => .rar
  | .cma, _ => .cma
  | .sta, w => .sta w.op16
  | .lda, w => .lda w.op16
  | .inrA, _ => .inrA
  | .dcrA, _ => .dcrA
  | .mviA, w => .mviA w.op8
  | .movBC, _ => .movBC
  | .movBA, _ => .movBA
  | .movCB, _ => .movCB
  | .movCA, _ => .movCA
  | .hlt, _ => .hlt
  | .movAB, _ => .movAB
  | .movAC, _ => .movAC
  | .addB, _ => .addB
  | .addC, _ => .addC
  | .subB, _ => .subB
  | .subC, _ => .subC
  | .anaB, _ => .anaB
  | .anaC, _ => .anaC
  | .xraB, _ => .xraB
  | .xraC, _ => .xraC
  | .oraB, _ => .oraB
  | .oraC, _ => .oraC
  | .jnz, w => .jnz w.op16
  | .jmp, w => .jmp w.op16
  | .ret, _ => .ret
  | .jz, w => .jz w.op16
  | .call, w => .call w.op16
  | .outPort, w => .outPort w.op8
  | .inPort, w => .inPort w.op8
  | .ani, w => .ani w.op8
  | .xri, w => .xri w.op8
  | .ori, w => .ori w.op8
  | .jm, w => .jm w.op16

/-- Decode under any opcode map (R62, R64, R67). -/
def decodeWith (map : OpcodeMap) (w : Window) : Except DecodeReject Instr :=
  match OpcodeMap.find map w.b0 with
  | some m => .ok (m.withOperands w)
  | none => .error (.unassignedOpcode w.b0)

/-- Decode under the spec's `OPCODE_MAP` (R63). -/
def decode (w : Window) : Except DecodeReject Instr :=
  decodeWith opcodeMap w

/-- The three bytes a numbered table word stands for: bit 0 is the least significant bit of the first
byte, the second byte is bits 15..8, bits at `nbits` and above are 0. -/
def tableWordBytes (nbits w : Nat) : List Byte :=
  let v := w % 2 ^ nbits
  [BitVec.ofNat 8 v, BitVec.ofNat 8 (v / 256), BitVec.ofNat 8 (v / 65536)]

/-- What the decoder reads from a word numbered as spec/opcode_table.json numbers it. -/
def decodeTableWord (nbits w : Nat) : Option Instr :=
  match decode (Window.ofBytes (tableWordBytes nbits w)) with
  | .ok i => some i
  | .error _ => none

/-! ### Encode -/

/-- The row of R63 an instruction belongs to. -/
def Instr.mnemonic : Instr → Mnemonic
  | .nop => .nop
  | .inrB => .inrB
  | .dcrB => .dcrB
  | .mviB _ => .mviB
  | .inrC => .inrC
  | .dcrC => .dcrC
  | .mviC _ => .mviC
  | .ral => .ral
  | .rar => .rar
  | .cma => .cma
  | .sta _ => .sta
  | .lda _ => .lda
  | .inrA => .inrA
  | .dcrA => .dcrA
  | .mviA _ => .mviA
  | .movBC => .movBC
  | .movBA => .movBA
  | .movCB => .movCB
  | .movCA => .movCA
  | .hlt => .hlt
  | .movAB => .movAB
  | .movAC => .movAC
  | .addB => .addB
  | .addC => .addC
  | .subB => .subB
  | .subC => .subC
  | .anaB => .anaB
  | .anaC => .anaC
  | .xraB => .xraB
  | .xraC => .xraC
  | .oraB => .oraB
  | .oraC => .oraC
  | .jnz _ => .jnz
  | .jmp _ => .jmp
  | .ret => .ret
  | .jz _ => .jz
  | .call _ => .call
  | .outPort _ => .outPort
  | .inPort _ => .inPort
  | .ani _ => .ani
  | .xri _ => .xri
  | .ori _ => .ori
  | .jm _ => .jm

/-- The bytes after the opcode (R61): none, `op8`, or `op16` low byte first. -/
def Instr.operandBytes : Instr → List Byte
  | .nop => []
  | .inrB => []
  | .dcrB => []
  | .mviB op8 => [op8]
  | .inrC => []
  | .dcrC => []
  | .mviC op8 => [op8]
  | .ral => []
  | .rar => []
  | .cma => []
  | .sta op16 => [loByte op16, hiByte op16]
  | .lda op16 => [loByte op16, hiByte op16]
  | .inrA => []
  | .dcrA => []
  | .mviA op8 => [op8]
  | .movBC => []
  | .movBA => []
  | .movCB => []
  | .movCA => []
  | .hlt => []
  | .movAB => []
  | .movAC => []
  | .addB => []
  | .addC => []
  | .subB => []
  | .subC => []
  | .anaB => []
  | .anaC => []
  | .xraB => []
  | .xraC => []
  | .oraB => []
  | .oraC => []
  | .jnz op16 => [loByte op16, hiByte op16]
  | .jmp op16 => [loByte op16, hiByte op16]
  | .ret => []
  | .jz op16 => [loByte op16, hiByte op16]
  | .call op16 => [loByte op16, hiByte op16]
  | .outPort op8 => [op8]
  | .inPort op8 => [op8]
  | .ani op8 => [op8]
  | .xri op8 => [op8]
  | .ori op8 => [op8]
  | .jm op16 => [loByte op16, hiByte op16]

/-- The bytes of an instruction under any opcode map (R60, R61). -/
def encodeWith (map : OpcodeMap) (i : Instr) : List Byte :=
  map i.mnemonic :: i.operandBytes

/-- The bytes of an instruction under the spec's `OPCODE_MAP` (R63). -/
def encode (i : Instr) : List Byte :=
  encodeWith opcodeMap i

end Sys2Proof
end

