-- ==== Sys2Proof/Machine/State.lean ====
section
/-! DEFINITION. The state of `cpu_core` (10_state.md, head: the whole state is the registers, PC, the
flags, MEM, RUN and FAULT, "and nothing else"), with the environment's two sequences that R30 (d) says a
model keeps, the reasons a step stops, and the machine right after reset. -/

namespace Sys2Proof.Machine

/-- The names of the three general registers (R10). -/
inductive Reg where
  | a
  | b
  | c
  deriving DecidableEq, Repr

/-- The run state `RUN` (R23). -/
inductive RunState where
  | running
  | halted
  deriving DecidableEq, Repr

/-- The machine's one exception (60_exceptions.md R160). The same record is what `FAULT` latches (R24)
and what a step of a faulted machine ends in (R166). -/
inductive Fault where
  /-- An unassigned opcode was decoded. Latched in `FAULT` by the faulting step, and raised as the
  outcome by every later step of the machine (Machine/Cycle.lean). Safe: R166 says a faulted state is
  never resumed. -/
  | decodeError (opcode : Byte) (pc : Word)
  deriving DecidableEq, Repr

/-- Why the model refuses a step. -/
inductive Refusal where
  /-- An instruction without a meaning. Raised by no arm: every instruction has its meaning. Safe. -/
  | notModelled (mnemonic : String)
  /-- A step of a machine whose run state is Halted: there is no step (70_reset_and_hazards.md R190; U12:
  "refuse: no step occurs"). Raised by Machine/Cycle.lean only. Safe. -/
  | halted
  deriving DecidableEq, Repr

/-- One event of the output port (43_io_misc.md R141). -/
structure PortEvent where
  port : Byte
  value : Byte
  deriving DecidableEq, Repr

/-- `MEM` as a list of (address, byte) pairs in the canonical form `Memory.wf` (Machine/Memory.lean):
an address that is not listed reads as 0x00, the reset content (R27; log 16). -/
abbrev Memory := List Host.Cell

/-- The machine's state, and the environment's. -/
structure State where
  /-- The accumulator `A` (R10). -/
  a : Byte
  /-- Register `B` (R10). -/
  b : Byte
  /-- Register `C` (R10). -/
  c : Byte
  /-- The program counter (R13). -/
  pc : Word
  /-- The flag `Sign` (R17). -/
  sign : Bool
  /-- The flag `Zero` (R17). -/
  zero : Bool
  /-- `MEM`, the link cell 0xFFFE to 0xFFFF inside it (R26, R28). -/
  mem : Memory
  /-- `RUN` (R23). -/
  run : RunState
  /-- `FAULT` (R24). -/
  fault : Option Fault
  /-- The environment's: bytes supplied to the input port and not yet taken, oldest first (R30 (d), R140;
  log 9). -/
  input : List Byte
  /-- The environment's: the history of output events, oldest first (R30 (d), R141; log 11). -/
  output : List PortEvent
  deriving DecidableEq, Repr

/-- Reset with the parameter `RESET_FLAGS` left open (70_reset_and_hazards.md R180, U6). The environment
has supplied and received nothing (log 10). -/
def State.resetWith (sign zero : Bool) : State where
  a := 0x00#8
  b := 0x00#8
  c := 0x00#8
  pc := Config.resetPc
  sign := sign
  zero := zero
  mem := []
  run := .running
  fault := none
  input := []
  output := []

/-- The machine right after reset (R31, R180). -/
def State.reset : State :=
  State.resetWith Config.resetSign Config.resetZero

end Sys2Proof.Machine
end

