-- ==== Sys2Proof/Machine/Memory.lean ====
section
/-! DEFINITION. `MEM` as a canonical list (20_memory.md R40, R44; 10_state.md R26, R27): what an unlisted
address reads as, reading and writing one byte, and the canonical form. -/

namespace Sys2Proof.Machine

/-- What an address reads as when no entry lists it: the reset content of every byte (R27). -/
def unlistedByte (_ : Nat) : Byte := 0x00#8

/-- The byte at an address. -/
def Memory.read : Memory → Nat → Byte
  | [], addr => unlistedByte addr
  | cell :: rest, addr => if cell.1 = addr then cell.2 else Memory.read rest addr

/-- The list without an address's entries. -/
def Memory.erase : Memory → Nat → Memory
  | [], _ => []
  | cell :: rest, addr =>
    if cell.1 = addr then Memory.erase rest addr else cell :: Memory.erase rest addr

/-- An entry put in its place among rising addresses. -/
def Memory.insert : Memory → Nat → Byte → Memory
  | [], addr, v => [(addr, v)]
  | cell :: rest, addr, v =>
    if addr < cell.1 then (addr, v) :: cell :: rest else cell :: Memory.insert rest addr v

/-- The memory after a byte is written. Writing what an unlisted address reads as removes the entry, so
that equal memories are equal lists. -/
def Memory.write (m : Memory) (addr : Nat) (v : Byte) : Memory :=
  if v = unlistedByte addr then Memory.erase m addr else Memory.insert (Memory.erase m addr) addr v

/-- The canonical form: addresses strictly rising and below 65536 (R26), no entry that an unlisted
address would read as. -/
abbrev Memory.wf (m : Memory) : Prop :=
  m.Pairwise (fun x y => x.1 < y.1) ∧ ∀ cell ∈ m, cell.1 < Config.memSize ∧ cell.2 ≠ unlistedByte cell.1

/-- Bytes stored at consecutive addresses from `addr` up. A byte that would lie above 0xFFFF is not
stored: no write reaches the padding (20_memory.md R47). -/
def Memory.storeBytes : Memory → Nat → List Byte → Memory
  | m, _, [] => m
  | m, addr, v :: rest =>
    Memory.storeBytes (if addr < Config.memSize then Memory.write m addr v else m) (addr + 1) rest

end Sys2Proof.Machine
end

