-- ==== Sys2Proof/Machine/Ops.lean ====
section
/-! DEFINITION. The named operations every meaning is built from: the primitives of 00_scope.md R7 over
registers, PC, memory and ports, halting, and taking the one exception. There is no return from an
exception on this machine (60_exceptions.md R167): `FAULT` is cleared by reset only. -/

namespace Sys2Proof.Machine

/-- The outcome of a step or of a meaning. -/
abbrev Result := Host.Outcome State Fault Refusal

/-! ### One update per piece of state -/

/-- `x[r]` (R7). -/
def State.reg (s : State) : Reg → Byte
  | .a => s.a
  | .b => s.b
  | .c => s.c

/-- `x[r] <- v` (R7). No register is hardwired and none aliases another (R10). -/
def State.setReg (s : State) (r : Reg) (v : Byte) : State :=
  match r with
  | .a => { s with a := v }
  | .b => { s with b := v }
  | .c => { s with c := v }

/-- `S <- sign; Z <- zero` (R7). Both flags are always written together (10_state.md R18). -/
def State.setFlags (s : State) (sign zero : Bool) : State :=
  { s with sign := sign, zero := zero }

/-- `pc <- target` (R7). -/
def State.setPc (s : State) (target : Word) : State :=
  { s with pc := target }

/-- The memory replaced. -/
def State.setMem (s : State) (mem : Memory) : State :=
  { s with mem := mem }

/-- `RUN <- run`. -/
def State.setRun (s : State) (run : RunState) : State :=
  { s with run := run }

/-- `FAULT <- fault`. -/
def State.setFault (s : State) (fault : Option Fault) : State :=
  { s with fault := fault }

/-- The environment's input sequence replaced. -/
def State.setInput (s : State) (input : List Byte) : State :=
  { s with input := input }

/-- The environment's event history replaced. -/
def State.setOutput (s : State) (output : List PortEvent) : State :=
  { s with output := output }

/-! ### Program counter -/

/-- A PC value advanced by a count, modulo 65536 (10_state.md R15, D3; log 3). -/
def pcPlus (pc : Word) (count : Nat) : Word := pc + BitVec.ofNat 16 count

/-- `pc <- pc + count` (R14, R15). -/
def State.advance (s : State) (count : Nat) : State :=
  s.setPc (pcPlus s.pc count)

/-! ### Data memory (20_memory.md R44 to R46) -/

/-- `MemRead(addr, 1)` (R45). It cannot fail. -/
def memRead8 (s : State) (addr : Word) : Byte :=
  Memory.read s.mem addr.toNat

/-- `MemRead(addr, 2)`, little-endian (R45). -/
def memRead16 (s : State) (addr : Word) : Word :=
  wordOf (memRead8 s (addr + 1#16)) (memRead8 s addr)

/-- `MemWrite(addr, 1, v)` (R46). It cannot fail; every address is writable. -/
def memWrite8 (s : State) (addr : Word) (v : Byte) : State :=
  s.setMem (Memory.write s.mem addr.toNat v)

/-- `MemWrite(addr, 2, v)`, little-endian (R46). -/
def memWrite16 (s : State) (addr : Word) (v : Word) : State :=
  memWrite8 (memWrite8 s addr (loByte v)) (addr + 1#16) (hiByte v)

/-- `LINK_ADDR`: the link cell is the two bytes 0xFFFE and 0xFFFF of MEM (10_state.md R28, D19; log 14). -/
def linkAddr : Word := 0xFFFE#16

/-- The return address the link cell holds, low byte at 0xFFFE (R28, D2; log 2). -/
def readLink (s : State) : Word :=
  memRead16 s linkAddr

/-- The link cell written (R28, D2; log 2). -/
def writeLink (s : State) (ret : Word) : State :=
  memWrite16 s linkAddr ret

/-! ### Instruction fetch (20_memory.md R47, R48) -/

/-- What the padding above 0xFFFF reads as (R47, D4; log 4). -/
def paddingByte : Byte := 0x00#8

/-- `FetchByte(a)` at an unreduced fetch address: memory up to 0xFFFF, the padding above; no wrap to
0x0000 (R47, D4). -/
def fetchByte (s : State) (addr : Nat) : Byte :=
  if addr < Config.memSize then Memory.read s.mem addr else paddingByte

/-- The bytes at `pc`, `pc + 1` and `pc + 2`, the sums not reduced (R48). Reading a byte the format does
not name has no effect (R44, D20). -/
def fetchWindow (s : State) : Window :=
  ⟨fetchByte s s.pc.toNat, fetchByte s (s.pc.toNat + 1), fetchByte s (s.pc.toNat + 2)⟩

/-- Fetch and decode under an opcode map (R48, R190). -/
def fetchInstr (map : OpcodeMap) (s : State) : Except DecodeReject Instr :=
  decodeWith map (fetchWindow s)

/-! ### Ports (43_io_misc.md R140, R141) -/

/-- `IN_STATUS_PORTS` (R5): the ports for which the discarded status of `IN` is 1. -/
def inStatus (port : Byte) : Bool :=
  port == 1#8 || port == 2#8

/-- What the Input Port Handler answers: the byte and the status code (R140). -/
structure PortReply where
  value : Byte
  status : Bool
  deriving DecidableEq, Repr

/-- `PortIn(p)` (R140, D8): the oldest byte the environment has supplied, the same for every port, with
the sequence after it is taken; nothing while the environment has supplied none. -/
def portIn (s : State) (port : Byte) : Option (PortReply × State) :=
  match s.input with
  | [] => none
  | v :: rest => some (⟨v, inStatus port⟩, s.setInput rest)

/-- `OUT_PORT` (R5): the only port `OUT` acts on. -/
def outPort : Byte := 0x03#8

/-- `PortOut(p, v)`: one event at the end of the history (R141). -/
def portOut (s : State) (port value : Byte) : State :=
  s.setOutput (s.output ++ [⟨port, value⟩])

/-! ### Halting, and taking the exception -/

/-- `halt`: `RUN <- Halted` (R7, R145). -/
def halt (s : State) : State :=
  s.setRun .halted

/-- `raise DecodeError(opcode, pc)` (60_exceptions.md R160, R166): the opcode and the address of the
offending byte are latched in `FAULT`; nothing else changes, RUN stays Running, PC stays. -/
def raiseDecodeError (s : State) (opcode : Byte) : State :=
  s.setFault (some (.decodeError opcode s.pc))

end Sys2Proof.Machine
end

