-- ==== Sys2Proof/Machine/Flags.lean ====
section
/-! DEFINITION. The two flags (10_state.md R17, R18): how each is computed from the accumulator, and the
latching that ends every flag-affecting instruction. There is no other flag (R17). -/

namespace Sys2Proof.Machine

/-- `S`: bit 7, that is the two's-complement value is negative (R6, R7). -/
def signOf (v : Byte) : Bool := v.getLsbD 7

/-- `Z`: the value is 0x00 (R7). -/
def zeroOf (v : Byte) : Bool := v == 0x00#8

/-- `SZ(x[A])`: both flags latched from the accumulator (R7, R18). -/
def latchSZ (s : State) : State :=
  s.setFlags (signOf s.a) (zeroOf s.a)

/-- `x[A] <- v; SZ(x[A])`: what every instruction that writes `A` does (R18, R20). -/
def writeAcc (s : State) (v : Byte) : State :=
  latchSZ (s.setReg .a v)

end Sys2Proof.Machine
end

