-- ==== Sys2Proof/Machine/Operands.lean ====
section
/-! DEFINITION. The three ways of naming an operand (41_move_load_store.md R121), the arithmetic of the
ALU on bytes (40_alu.md R100; 43_io_misc.md R143, R144), and the shapes of meaning the families share. -/

namespace Sys2Proof.Machine

/-! ### Operands -/

/-- A source operand (R121): a register implied by the opcode, the immediate byte, or the byte at the
direct address `op16`. There is no other mode. -/
inductive Operand where
  | reg (r : Reg)
  | imm (v : Byte)
  | direct (addr : Word)
  deriving DecidableEq, Repr

/-- The effective address of a direct operand is `op16` itself (R121, 20_memory.md R57). -/
def effectiveAddr (op16 : Word) : Word := op16

/-- The byte an operand names, with no extension (R121). -/
def Operand.read (s : State) : Operand → Byte
  | .reg r => s.reg r
  | .imm v => v
  | .direct addr => memRead8 s (effectiveAddr addr)

/-! ### The ALU on bytes: exact integers, reduced modulo 256 (R100) -/

/-- `(x + y) mod 256` (R80). -/
def aluAdd (x y : Byte) : Byte := BitVec.ofNat 8 (x.toNat + y.toNat)

/-- `(x - y) mod 256` (R82). -/
def aluSub (x y : Byte) : Byte := BitVec.ofInt 8 ((x.toNat : Int) - (y.toNat : Int))

/-- Bitwise AND (R84). -/
def aluAnd (x y : Byte) : Byte := x &&& y

/-- Bitwise OR (R87). -/
def aluOr (x y : Byte) : Byte := x ||| y

/-- Bitwise exclusive OR (R90). -/
def aluXor (x y : Byte) : Byte := x ^^^ y

/-- Complement, each of the 8 bits inverted (R93). -/
def aluNot (x : Byte) : Byte := ~~~x

/-- `(x + 1) mod 256` (R94). -/
def aluInc (x : Byte) : Byte := aluAdd x 0x01#8

/-- `(x - 1) mod 256` (R95). -/
def aluDec (x : Byte) : Byte := aluSub x 0x01#8

/-- Rotate left by one, bit 7 to bit 0, no carry (R143). -/
def rotLeft (x : Byte) : Byte := (x <<< 1) ||| (x >>> 7)

/-- Rotate right by one, bit 0 to bit 7, no carry (R144). -/
def rotRight (x : Byte) : Byte := (x >>> 1) ||| ((x &&& 0x01#8) <<< 7)

/-! ### Shapes of meaning -/

/-- `x[A] <- f(x[A], operand); SZ(x[A]); pc <- pc + count` (R101). -/
def accBinary (f : Byte → Byte → Byte) (src : Operand) (count : Nat) (s : State) : Result :=
  .next ((writeAcc s (f s.a (src.read s))).advance count)

/-- `x[A] <- f(x[A]); SZ(x[A]); pc <- pc + 1` (R93 to R95, R143, R144). -/
def accUnary (f : Byte → Byte) (s : State) : Result :=
  .next ((writeAcc s (f s.a)).advance 1)

/-- `x[A] <- operand; SZ(x[A]); pc <- pc + count` (R110, R116, R119). -/
def accLoad (src : Operand) (count : Nat) (s : State) : Result :=
  .next ((writeAcc s (src.read s)).advance count)

/-- `x[r] <- f(x[r]); pc <- pc + 1`, no flag (R96 to R99). -/
def regUnary (f : Byte → Byte) (r : Reg) (s : State) : Result :=
  .next ((s.setReg r (f (s.reg r))).advance 1)

/-- `x[r] <- operand; pc <- pc + count`, no flag (R112 to R115, R117, R118). -/
def regLoad (r : Reg) (src : Operand) (count : Nat) (s : State) : Result :=
  .next ((s.setReg r (src.read s)).advance count)

/-- `if cond then pc <- op16 else pc <- pc + 3` (42_control_transfer.md R126 to R128, R131). -/
def jumpIf (cond : Bool) (op16 : Word) (s : State) : Result :=
  .next (if cond then s.setPc op16 else s.advance 3)

end Sys2Proof.Machine
end

