-- ==== Sys2Proof/Machine/Alu.lean ====
section
/-! DEFINITION. The meanings of the family: arithmetic, logic, complement, increment and decrement (40_alu.md). Every instruction
here whose destination is `A` latches both flags; the four whose destination is `B` or `C` write none (R101). -/

namespace Sys2Proof.Machine

/-- `ADD_B` (R80): `x[A] <- (x[A] + x[B]) mod 256; SZ(x[A]); pc <- pc + 1`. -/
def execAddB (s : State) : Result :=
  accBinary aluAdd (.reg .b) 1 s

/-- `ADD_C` (R81): `x[A] <- (x[A] + x[C]) mod 256; SZ(x[A]); pc <- pc + 1`. -/
def execAddC (s : State) : Result :=
  accBinary aluAdd (.reg .c) 1 s

/-- `SUB_B` (R82): `x[A] <- (x[A] - x[B]) mod 256; SZ(x[A]); pc <- pc + 1`. -/
def execSubB (s : State) : Result :=
  accBinary aluSub (.reg .b) 1 s

/-- `SUB_C` (R83): `x[A] <- (x[A] - x[C]) mod 256; SZ(x[A]); pc <- pc + 1`. -/
def execSubC (s : State) : Result :=
  accBinary aluSub (.reg .c) 1 s

/-- `ANA_B` (R84): `x[A] <- x[A] & x[B]; SZ(x[A]); pc <- pc + 1`. -/
def execAnaB (s : State) : Result :=
  accBinary aluAnd (.reg .b) 1 s

/-- `ANA_C` (R85): `x[A] <- x[A] & x[C]; SZ(x[A]); pc <- pc + 1`. -/
def execAnaC (s : State) : Result :=
  accBinary aluAnd (.reg .c) 1 s

/-- `ANI` (R86): `x[A] <- x[A] & op8; SZ(x[A]); pc <- pc + 2`. -/
def execAni (op8 : Byte) (s : State) : Result :=
  accBinary aluAnd (.imm op8) 2 s

/-- `ORA_B` (R87): `x[A] <- x[A] | x[B]; SZ(x[A]); pc <- pc + 1`. -/
def execOraB (s : State) : Result :=
  accBinary aluOr (.reg .b) 1 s

/-- `ORA_C` (R88): `x[A] <- x[A] | x[C]; SZ(x[A]); pc <- pc + 1`. -/
def execOraC (s : State) : Result :=
  accBinary aluOr (.reg .c) 1 s

/-- `ORI` (R89): `x[A] <- x[A] | op8; SZ(x[A]); pc <- pc + 2`. -/
def execOri (op8 : Byte) (s : State) : Result :=
  accBinary aluOr (.imm op8) 2 s

/-- `XRA_B` (R90): `x[A] <- x[A] ^ x[B]; SZ(x[A]); pc <- pc + 1`. -/
def execXraB (s : State) : Result :=
  accBinary aluXor (.reg .b) 1 s

/-- `XRA_C` (R91): `x[A] <- x[A] ^ x[C]; SZ(x[A]); pc <- pc + 1`. -/
def execXraC (s : State) : Result :=
  accBinary aluXor (.reg .c) 1 s

/-- `XRI` (R92): `x[A] <- x[A] ^ op8; SZ(x[A]); pc <- pc + 1`. The advance is 1 although the
operand is byte 1, so the operand byte is the next opcode (30_encoding.md R66): "preserve this exactly". -/
def execXri (op8 : Byte) (s : State) : Result :=
  accBinary aluXor (.imm op8) 1 s

/-- `CMA` (R93): `x[A] <- ~x[A]; SZ(x[A]); pc <- pc + 1`. -/
def execCma (s : State) : Result :=
  accUnary aluNot s

/-- `INR_A` (R94): `x[A] <- (x[A] + 1) mod 256; SZ(x[A]); pc <- pc + 1`. -/
def execInrA (s : State) : Result :=
  accUnary aluInc s

/-- `DCR_A` (R95): `x[A] <- (x[A] - 1) mod 256; SZ(x[A]); pc <- pc + 1`. -/
def execDcrA (s : State) : Result :=
  accUnary aluDec s

/-- `INR_B` (R96): `x[B] <- (x[B] + 1) mod 256; pc <- pc + 1`; no flag is written. -/
def execInrB (s : State) : Result :=
  regUnary aluInc .b s

/-- `INR_C` (R97): `x[C] <- (x[C] + 1) mod 256; pc <- pc + 1`; no flag is written. -/
def execInrC (s : State) : Result :=
  regUnary aluInc .c s

/-- `DCR_B` (R98): `x[B] <- (x[B] - 1) mod 256; pc <- pc + 1`; no flag is written. -/
def execDcrB (s : State) : Result :=
  regUnary aluDec .b s

/-- `DCR_C` (R99): `x[C] <- (x[C] - 1) mod 256; pc <- pc + 1`; no flag is written. -/
def execDcrC (s : State) : Result :=
  regUnary aluDec .c s

end Sys2Proof.Machine
end

