-- ==== Sys2Proof/Machine/Control.lean ====
section
/-! DEFINITION. The meanings of the family: jumps, call and return (42_control_transfer.md). Targets are absolute and are written to PC
as they stand (R131); none of these changes a register or a flag. -/

namespace Sys2Proof.Machine

/-- `JMP` (R125): `pc <- op16`. -/
def execJmp (op16 : Word) (s : State) : Result :=
  .next (s.setPc op16)

/-- `JZ` (R126): `if Z == 1 then pc <- op16 else pc <- pc + 3`. -/
def execJz (op16 : Word) (s : State) : Result :=
  jumpIf s.zero op16 s

/-- `JNZ` (R127): `if Z == 0 then pc <- op16 else pc <- pc + 3`. -/
def execJnz (op16 : Word) (s : State) : Result :=
  jumpIf (!s.zero) op16 s

/-- `JM` (R128): `if S == 1 then pc <- op16 else pc <- pc + 3`. -/
def execJm (op16 : Word) (s : State) : Result :=
  jumpIf s.sign op16 s

/-- `CALL` (R129): `MemWrite(0xFFFE, 2, (pc + 3) mod 65536); pc <- op16`. The operand was
read before the cell is written (20_memory.md R49). -/
def execCall (op16 : Word) (s : State) : Result :=
  .next ((writeLink s (pcPlus s.pc 3)).setPc op16)

/-- `RET` (R130): `pc <- MemRead(0xFFFE, 2)`; the cell is not changed (R132). -/
def execRet (s : State) : Result :=
  .next (s.setPc (readLink s))

end Sys2Proof.Machine
end

