-- ==== Sys2Proof/Machine/IoMisc.lean ====
section
/-! DEFINITION. The meanings of the family: input, output, no-operation, rotates and halt (43_io_misc.md). -/

namespace Sys2Proof.Machine

/-- `IN` (R140): `x[A] <- PortIn(op8); SZ(x[A]); pc <- pc + 2`, the status code dropped (D17; log 13). While
the environment has supplied no byte the machine is held: the step changes nothing (D8; log 9). -/
def execInPort (op8 : Byte) (s : State) : Result :=
  match portIn s op8 with
  | none => .next s
  | some (reply, t) => .next ((writeAcc t reply.value).advance 2)

/-- `OUT` (R141): `if op8 == 0x03 then PortOut(0x03, x[A]); pc <- pc + 2`; every other port is ignored. -/
def execOutPort (op8 : Byte) (s : State) : Result :=
  .next ((if op8 = outPort then portOut s outPort s.a else s).advance 2)

/-- `NOP` (R142): `pc <- pc + 1`. -/
def execNop (s : State) : Result :=
  .next (s.advance 1)

/-- `RAL` (R143): `x[A] <- {x[A][6:0], x[A][7]}; SZ(x[A]); pc <- pc + 1`. -/
def execRal (s : State) : Result :=
  accUnary rotLeft s

/-- `RAR` (R144): `x[A] <- {x[A][0], x[A][7:1]}; SZ(x[A]); pc <- pc + 1`. -/
def execRar (s : State) : Result :=
  accUnary rotRight s

/-- `HLT` (R145): `pc <- pc + 1; RUN <- Halted`. -/
def execHlt (s : State) : Result :=
  .next (halt (s.advance 1))

end Sys2Proof.Machine
end

