-- ==== Sys2Proof/Machine/Move.lean ====
section
/-! DEFINITION. The meanings of the family: register moves, immediate loads, load and store (41_move_load_store.md). In `MOV_XY` the
first letter is the destination (30_encoding.md R69, D10). -/

namespace Sys2Proof.Machine

/-- `MOV_AB` (R110): `x[A] <- x[B]; SZ(x[A]); pc <- pc + 1`. -/
def execMovAB (s : State) : Result :=
  accLoad (.reg .b) 1 s

/-- `MOV_AC` (R111): `x[A] <- x[C]; SZ(x[A]); pc <- pc + 1`. -/
def execMovAC (s : State) : Result :=
  accLoad (.reg .c) 1 s

/-- `MOV_BA` (R112): `x[B] <- x[A]; pc <- pc + 1`; no flag is written (destination first, D10; log 12). -/
def execMovBA (s : State) : Result :=
  regLoad .b (.reg .a) 1 s

/-- `MOV_BC` (R113): `x[B] <- x[C]; pc <- pc + 1`; no flag is written (destination first, D10; log 12). -/
def execMovBC (s : State) : Result :=
  regLoad .b (.reg .c) 1 s

/-- `MOV_CA` (R114): `x[C] <- x[A]; pc <- pc + 1`; no flag is written (destination first, D10; log 12). -/
def execMovCA (s : State) : Result :=
  regLoad .c (.reg .a) 1 s

/-- `MOV_CB` (R115): `x[C] <- x[B]; pc <- pc + 1`; no flag is written (destination first, D10; log 12). -/
def execMovCB (s : State) : Result :=
  regLoad .c (.reg .b) 1 s

/-- `MVI_A` (R116): `x[A] <- op8; SZ(x[A]); pc <- pc + 2`. -/
def execMviA (op8 : Byte) (s : State) : Result :=
  accLoad (.imm op8) 2 s

/-- `MVI_B` (R117): `x[B] <- op8; pc <- pc + 2`; no flag is written. -/
def execMviB (op8 : Byte) (s : State) : Result :=
  regLoad .b (.imm op8) 2 s

/-- `MVI_C` (R118): `x[C] <- op8; pc <- pc + 2`; no flag is written. -/
def execMviC (op8 : Byte) (s : State) : Result :=
  regLoad .c (.imm op8) 2 s

/-- `LDA` (R119): `x[A] <- MemRead(op16, 1); SZ(x[A]); pc <- pc + 3`. -/
def execLda (op16 : Word) (s : State) : Result :=
  accLoad (.direct op16) 3 s

/-- `STA` (R120): `MemWrite(op16, 1, x[A]); pc <- pc + 3`; no flag is written. -/
def execSta (op16 : Word) (s : State) : Result :=
  .next ((memWrite8 s (effectiveAddr op16) s.a).advance 3)

end Sys2Proof.Machine
end

