-- ==== Sys2Proof/Machine/Dispatch.lean ====
section
/-! DEFINITION. One arm per instruction, in the order of spec/opcode_table.json. `exec` is the effect of
an instruction that has been fetched and decoded at `pc`; whether the machine may step at all is the
step's concern (70_reset_and_hazards.md R190; log 18). -/

namespace Sys2Proof.Machine

def exec (i : Instr) (s : State) : Host.Outcome State Fault Refusal :=
  match i with
  | .nop => Sys2Proof.Machine.execNop s
  | .inrB => Sys2Proof.Machine.execInrB s
  | .dcrB => Sys2Proof.Machine.execDcrB s
  | .mviB op8 => Sys2Proof.Machine.execMviB op8 s
  | .inrC => Sys2Proof.Machine.execInrC s
  | .dcrC => Sys2Proof.Machine.execDcrC s
  | .mviC op8 => Sys2Proof.Machine.execMviC op8 s
  | .ral => Sys2Proof.Machine.execRal s
  | .rar => Sys2Proof.Machine.execRar s
  | .cma => Sys2Proof.Machine.execCma s
  | .sta op16 => Sys2Proof.Machine.execSta op16 s
  | .lda op16 => Sys2Proof.Machine.execLda op16 s
  | .inrA => Sys2Proof.Machine.execInrA s
  | .dcrA => Sys2Proof.Machine.execDcrA s
  | .mviA op8 => Sys2Proof.Machine.execMviA op8 s
  | .movBC => Sys2Proof.Machine.execMovBC s
  | .movBA => Sys2Proof.Machine.execMovBA s
  | .movCB => Sys2Proof.Machine.execMovCB s
  | .movCA => Sys2Proof.Machine.execMovCA s
  | .hlt => Sys2Proof.Machine.execHlt s
  | .movAB => Sys2Proof.Machine.execMovAB s
  | .movAC => Sys2Proof.Machine.execMovAC s
  | .addB => Sys2Proof.Machine.execAddB s
  | .addC => Sys2Proof.Machine.execAddC s
  | .subB => Sys2Proof.Machine.execSubB s
  | .subC => Sys2Proof.Machine.execSubC s
  | .anaB => Sys2Proof.Machine.execAnaB s
  | .anaC => Sys2Proof.Machine.execAnaC s
  | .xraB => Sys2Proof.Machine.execXraB s
  | .xraC => Sys2Proof.Machine.execXraC s
  | .oraB => Sys2Proof.Machine.execOraB s
  | .oraC => Sys2Proof.Machine.execOraC s
  | .jnz op16 => Sys2Proof.Machine.execJnz op16 s
  | .jmp op16 => Sys2Proof.Machine.execJmp op16 s
  | .ret => Sys2Proof.Machine.execRet s
  | .jz op16 => Sys2Proof.Machine.execJz op16 s
  | .call op16 => Sys2Proof.Machine.execCall op16 s
  | .outPort op8 => Sys2Proof.Machine.execOutPort op8 s
  | .inPort op8 => Sys2Proof.Machine.execInPort op8 s
  | .ani op8 => Sys2Proof.Machine.execAni op8 s
  | .xri op8 => Sys2Proof.Machine.execXri op8 s
  | .ori op8 => Sys2Proof.Machine.execOri op8 s
  | .jm op16 => Sys2Proof.Machine.execJm op16 s

end Sys2Proof.Machine
end

