-- ==== Sys2Proof/Machine/Cycle.lean ====
section
/-! DEFINITION. One step of the machine (70_reset_and_hazards.md R190), with the opcode map a parameter
(30_encoding.md R64, D1). -/

namespace Sys2Proof.Machine

/-- Execute what decode answered, or take the decode error (60_exceptions.md R160, R164): decode
happens before execute, and nothing is written before it. -/
def executeDecoded (s : State) : Except DecodeReject Instr → Result
  | .ok i => exec i s
  | .error (.unassignedOpcode opcode) => .next (raiseDecodeError s opcode)

/-- Fetch, decode, execute, on a machine that may step (R190). -/
def runCycle (map : OpcodeMap) (s : State) : Result :=
  executeDecoded s (fetchInstr map s)

/-- One step under an opcode map (R190): enabled only when `FAULT` is none and `RUN` is Running. A
faulted machine answers its fault (60_exceptions.md R166; log 6), a halted one is refused (U12; log 7). -/
def stepWith (map : OpcodeMap) (s : State) : Result :=
  match s.fault, s.run with
  | some f, _ => .fault f
  | none, .halted => .refused .halted
  | none, .running => runCycle map s

end Sys2Proof.Machine
end

