-- ==== Sys2Proof/Machine/Step.lean ====
section
/-! DEFINITION. The step under the spec's `OPCODE_MAP`, and the placing of one instruction where the step
fetches it. -/

namespace Sys2Proof.Machine

/-- One step of `cpu_core` (70_reset_and_hazards.md R190). -/
def step (s : State) : Host.Outcome State Fault Refusal :=
  stepWith opcodeMap s

/-- The instruction of a numbered table word stored at PC, its bits at `nbits` and above 0, up to the
longest instruction (3 bytes). It stands for the Loader's `loadProgram` (R183; log 17). -/
def State.withFetchWord (s : State) (nbits w : Nat) : State :=
  s.setMem (Memory.storeBytes s.mem s.pc.toNat (tableWordBytes nbits w))

end Sys2Proof.Machine
end

