-- ==== Sys2Proof/Machine/Loader.lean ====
section
/-! DEFINITION. What the host may do to the machine (70_reset_and_hazards.md R180 to R187; log 8): reset,
`loadProgram`, `setPC` (`State.setPc`), and the environment supplying an input byte (43_io_misc.md R140).
The Loader acts only between reset and the first step, and reset only between steps (R58, R181, D7); that
is a discipline on the host, which no field of the state records. -/

namespace Sys2Proof.Machine

/-- The reset operation on a machine in any state (R180, R181). The environment's two sequences are not
the core's state (10_state.md R30 (d)), so they stay (log 8). -/
def hostReset (s : State) : State :=
  (State.reset.setInput s.input).setOutput s.output

/-- `loadProgram(bytes)` (R183): the image copied to address 0 upward; more than 65536 bytes are refused
without effect (D4; log 22). -/
def loadProgram (bytes : List Byte) (s : State) : Option State :=
  if imageWf bytes then some (s.setMem (Memory.storeBytes s.mem 0 bytes)) else none

/-- The boot sequence: reset, `loadProgram`, `setPC` (R182). The engine then runs from this state. -/
def boot (bytes : List Byte) (start : Word) (s : State) : Option State :=
  (loadProgram bytes (hostReset s)).map (fun t => t.setPc start)

/-- The environment supplies one input byte, after those already supplied (R140). It is what lifts the
hold of an `IN`. -/
def supplyInput (v : Byte) (s : State) : State :=
  s.setInput (s.input ++ [v])

/-! ### The program image format (R186, informative: outside the core, 00_scope.md R4 (a)) -/

/-- What an image hands the Loader: the code, and the initial program counter. -/
structure Image where
  code : List Byte
  start : Word
  deriving DecidableEq, Repr

/-- The magic signature as file bytes (R186). -/
def imageMagic : List Byte := [0x53#8, 0x41#8, 0x50#8, 0x43#8]

/-- An image read from a file's bytes (R186): magic, code size, initial PC, code; `none` for a bad magic
or a short read. Bytes after the code are ignored (log 21). -/
def parseImage (file : List Byte) : Option Image :=
  match file.drop 4 with
  | sizeLo :: sizeHi :: pcLo :: pcHi :: body =>
    let size := (wordOf sizeHi sizeLo).toNat
    if file.take 4 = imageMagic ∧ size ≤ body.length then
      some ⟨body.take size, wordOf pcHi pcLo⟩
    else none
  | _ => none

end Sys2Proof.Machine
end

