-- ==== Sys2Proof/Safety.lean ====
section
/-! DEFINITION. The terms claims about the machine are stated in: when it may step and how a run ends
(70_reset_and_hazards.md R190, R199), the invariants the spec states (10_state.md R20, R24; 43_io_misc.md
R141; log 16), and the spec's own lists of what each instruction reads and writes (10_state.md R11, R18,
R19, R26). The lists are written from the spec's lists, not from the meanings. -/

namespace Sys2Proof.Machine

/-! ### Stepping and ending -/

/-- A step is enabled (R190). -/
abbrev State.canStep (s : State) : Prop := s.run = .running ∧ s.fault = none

/-- The normal end of a run: `HLT` executed (R199 (a)). -/
abbrev State.endedByHalt (s : State) : Prop := s.run = .halted ∧ s.fault = none

/-- The end of a run by a decode error (R199 (b)). -/
abbrev State.endedByFault (s : State) (opcode : Byte) (pc : Word) : Prop :=
  s.fault = some (.decodeError opcode pc) ∧ s.run = .running

/-- `k` steps one after another, stopping at the first that answers no next state. -/
def stepN : Nat → State → Result
  | 0, s => .next s
  | k + 1, s =>
    match step s with
    | .next t => stepN k t
    | .fault f => .fault f
    | .refused r => .refused r

/-! ### Invariants -/

/-- The flags say what the accumulator holds (R20). -/
abbrev State.flagsFollowA (s : State) : Prop := s.sign = signOf s.a ∧ s.zero = zeroOf s.a

/-- The accumulator and the flags as reset leaves them, which does not satisfy `flagsFollowA` (R20, R21). -/
abbrev State.flagsAtReset (s : State) : Prop :=
  s.a = 0x00#8 ∧ s.sign = Config.resetSign ∧ s.zero = Config.resetZero

/-- What `FAULT` holds is true of the state: RUN is Running, the pc recorded is PC, the opcode recorded
is the byte there, and it is unassigned (R24, R160, R166). -/
def State.faultRecorded (s : State) : Bool :=
  match s.fault with
  | none => true
  | some (.decodeError opcode pc) =>
    s.run == .running && pc == s.pc && opcode == fetchByte s s.pc.toNat &&
      (OpcodeMap.find opcodeMap opcode).isNone

/-- Every output event went to port 3 (R141). -/
abbrev State.outputsOnPort3 (s : State) : Prop := ∀ e ∈ s.output, e.port = 0x03#8

/-- What holds at reset and is kept by every step. -/
abbrev State.Inv (s : State) : Prop :=
  Memory.wf s.mem ∧ s.faultRecorded = true ∧ s.outputsOnPort3 ∧ (s.flagsFollowA ∨ s.flagsAtReset)

/-! ### What each instruction writes and reads -/

/-- The 23 flag-affecting instructions, which are the instructions that write `A` (R11, R18, R20). -/
def flagAffecting : Mnemonic → Bool
  | .nop => false
  | .inrB => false
  | .dcrB => false
  | .mviB => false
  | .inrC => false
  | .dcrC => false
  | .mviC => false
  | .ral => true
  | .rar => true
  | .cma => true
  | .sta => false
  | .lda => true
  | .inrA => true
  | .dcrA => true
  | .mviA => true
  | .movBC => false
  | .movBA => false
  | .movCB => false
  | .movCA => false
  | .hlt => false
  | .movAB => true
  | .movAC => true
  | .addB => true
  | .addC => true
  | .subB => true
  | .subC => true
  | .anaB => true
  | .anaC => true
  | .xraB => true
  | .xraC => true
  | .oraB => true
  | .oraC => true
  | .jnz => false
  | .jmp => false
  | .ret => false
  | .jz => false
  | .call => false
  | .outPort => false
  | .inPort => true
  | .ani => true
  | .xri => true
  | .ori => true
  | .jm => false

/-- The instructions that write `B` (R11). -/
def writesB : Mnemonic → Bool
  | .nop => false
  | .inrB => true
  | .dcrB => true
  | .mviB => true
  | .inrC => false
  | .dcrC => false
  | .mviC => false
  | .ral => false
  | .rar => false
  | .cma => false
  | .sta => false
  | .lda => false
  | .inrA => false
  | .dcrA => false
  | .mviA => false
  | .movBC => true
  | .movBA => true
  | .movCB => false
  | .movCA => false
  | .hlt => false
  | .movAB => false
  | .movAC => false
  | .addB => false
  | .addC => false
  | .subB => false
  | .subC => false
  | .anaB => false
  | .anaC => false
  | .xraB => false
  | .xraC => false
  | .oraB => false
  | .oraC => false
  | .jnz => false
  | .jmp => false
  | .ret => false
  | .jz => false
  | .call => false
  | .outPort => false
  | .inPort => false
  | .ani => false
  | .xri => false
  | .ori => false
  | .jm => false

/-- The instructions that write `C` (R11). -/
def writesC : Mnemonic → Bool
  | .nop => false
  | .inrB => false
  | .dcrB => false
  | .mviB => false
  | .inrC => true
  | .dcrC => true
  | .mviC => true
  | .ral => false
  | .rar => false
  | .cma => false
  | .sta => false
  | .lda => false
  | .inrA => false
  | .dcrA => false
  | .mviA => false
  | .movBC => false
  | .movBA => false
  | .movCB => true
  | .movCA => true
  | .hlt => false
  | .movAB => false
  | .movAC => false
  | .addB => false
  | .addC => false
  | .subB => false
  | .subC => false
  | .anaB => false
  | .anaC => false
  | .xraB => false
  | .xraC => false
  | .oraB => false
  | .oraC => false
  | .jnz => false
  | .jmp => false
  | .ret => false
  | .jz => false
  | .call => false
  | .outPort => false
  | .inPort => false
  | .ani => false
  | .xri => false
  | .ori => false
  | .jm => false

/-- The three instructions that read a flag (R19). -/
def readsFlags : Mnemonic → Bool
  | .nop => false
  | .inrB => false
  | .dcrB => false
  | .mviB => false
  | .inrC => false
  | .dcrC => false
  | .mviC => false
  | .ral => false
  | .rar => false
  | .cma => false
  | .sta => false
  | .lda => false
  | .inrA => false
  | .dcrA => false
  | .mviA => false
  | .movBC => false
  | .movBA => false
  | .movCB => false
  | .movCA => false
  | .hlt => false
  | .movAB => false
  | .movAC => false
  | .addB => false
  | .addC => false
  | .subB => false
  | .subC => false
  | .anaB => false
  | .anaC => false
  | .xraB => false
  | .xraC => false
  | .oraB => false
  | .oraC => false
  | .jnz => true
  | .jmp => false
  | .ret => false
  | .jz => true
  | .call => false
  | .outPort => false
  | .inPort => false
  | .ani => false
  | .xri => false
  | .ori => false
  | .jm => true

/-- The addresses an instruction stores to: `STA` its effective address, `CALL` the link cell, no other
instruction any (R26, R44). -/
def storedAddresses : Instr → List Nat
  | .nop => []
  | .inrB => []
  | .dcrB => []
  | .mviB _ => []
  | .inrC => []
  | .dcrC => []
  | .mviC _ => []
  | .ral => []
  | .rar => []
  | .cma => []
  | .sta op16 => [(effectiveAddr op16).toNat]
  | .lda _ => []
  | .inrA => []
  | .dcrA => []
  | .mviA _ => []
  | .movBC => []
  | .movBA => []
  | .movCB => []
  | .movCA => []
  | .hlt => []
  | .movAB => []
  | .movAC => []
  | .addB => []
  | .addC => []
  | .subB => []
  | .subC => []
  | .anaB => []
  | .anaC => []
  | .xraB => []
  | .xraC => []
  | .oraB => []
  | .oraC => []
  | .jnz _ => []
  | .jmp _ => []
  | .ret => []
  | .jz _ => []
  | .call _ => [linkAddr.toNat, linkAddr.toNat + 1]
  | .outPort _ => []
  | .inPort _ => []
  | .ani _ => []
  | .xri _ => []
  | .ori _ => []
  | .jm _ => []

end Sys2Proof.Machine
end

