-- ==== Sys2Proof/Certificates/Slice0/Obligations.lean ====
section
/-! DEFINITION. The statements for the provers, each a `def Obligations.<Name> : Prop`, after the few terms
they share. Results are stated in the spec's own arithmetic (sums modulo 256, bits), not through the
model's ALU definitions. -/

namespace Sys2Proof.Machine

/-- PC advanced by a count, modulo 65536 (10_state.md R15). -/
def pcAfter (s : State) (count : Nat) : Word := BitVec.ofNat 16 ((s.pc.toNat + count) % 65536)

/-- The state after an instruction that only writes `v` to `A`, latches both flags from it (00_scope.md
R7) and advances PC; every other field is as in `s`. -/
def afterAcc (s : State) (v : Byte) (count : Nat) : State :=
  { s with a := v, sign := decide (128 ≤ v.toNat), zero := decide (v.toNat = 0), pc := pcAfter s count }

/-- Instructions executed one after another; `none` once one answers no next state. -/
def execList : List Instr → State → Option State
  | [], s => some s
  | i :: rest, s =>
    match exec i s with
    | .next t => execList rest t
    | _ => none

/-- The ranges of opcode values the spec lists as illegal (30_encoding.md R67). -/
def illegalRanges : List (Nat × Nat) :=
  [(0x01, 0x03), (0x07, 0x0B), (0x0F, 0x16), (0x18, 0x1E), (0x20, 0x2E), (0x30, 0x31), (0x33, 0x39),
   (0x3B, 0x3B), (0x3F, 0x40), (0x42, 0x46), (0x49, 0x4E), (0x50, 0x75), (0x77, 0x77), (0x7A, 0x7F),
   (0x82, 0x8F), (0x92, 0x9F), (0xA2, 0xA7), (0xAA, 0xAF), (0xB2, 0xC1), (0xC4, 0xC8), (0xCB, 0xCC),
   (0xCE, 0xD2), (0xD4, 0xDA), (0xDC, 0xE5), (0xE7, 0xED), (0xEF, 0xF5), (0xF7, 0xF9), (0xFB, 0xFF)]

end Sys2Proof.Machine

open Sys2Proof Sys2Proof.Machine

/-- Under any injective opcode map, decoding the encoding of any instruction gives it back. Decode inverts encode, for all 43 instructions, every operand value, and every injective `OPCODE_MAP`, the spec's among them (D1). -/
def Obligations.DecodeInvertsEncodeUnderAnyInjectiveMap : Prop :=
    ∀ map : OpcodeMap, OpcodeMap.injective map → ∀ (i : Instr) (rest : List Byte),
    decodeWith map (Window.ofBytes (encodeWith map i ++ rest)) = .ok i

/-- Whatever the opcode map, encoding a decoded instruction gives back the bytes it was decoded from. No bit of an encoding is dropped or invented: the bytes an instruction was decoded from are its encoding. -/
def Obligations.EncodeInvertsDecodeUnderAnyMap : Prop :=
    ∀ (map : OpcodeMap) (w : Window) (i : Instr), decodeWith map w = .ok i →
    encodeWith map i = [w.b0, w.b1, w.b2].take i.mnemonic.shape.size

/-- Byte k is fetched at PC + k; byte 0 is the opcode, byte 1 op8 or op16[7:0], byte 2 op16[15:8]. The bit positions of every field of every format (R61), stated for any `OPCODE_MAP`, so that no opcode value of decision D1 is used. The first clause is byte `k` at fetch address `pc+k`; what a fetch address above 0xFFFF reads is not said here (D4, log 4). -/
def Obligations.OperandsStandInTheirBytes : Prop :=
    (∀ s : State, (fetchWindow s).b0 = fetchByte s s.pc.toNat ∧
      (fetchWindow s).b1 = fetchByte s (s.pc.toNat + 1) ∧ (fetchWindow s).b2 = fetchByte s (s.pc.toNat + 2)) ∧
    ∀ (map : OpcodeMap) (w : Window) (i : Instr), decodeWith map w = .ok i →
    w.b0 = map i.mnemonic ∧
    match i with
    | .mviA op8 | .mviB op8 | .mviC op8 | .ani op8 | .ori op8 | .xri op8 | .inPort op8 | .outPort op8 =>
        i.mnemonic.shape = .i8 ∧ op8 = w.b1
    | .lda op16 | .sta op16 | .jmp op16 | .jz op16 | .jnz op16 | .jm op16 | .call op16 =>
        i.mnemonic.shape = .a16 ∧ op16.toNat % 256 = w.b1.toNat ∧ op16.toNat / 256 = w.b2.toNat
    | _ => i.mnemonic.shape = .n

/-- The spec's opcode map is injective and keeps the seven attested values. The 36 other values are the spec's decision D1 (log 1). -/
def Obligations.SpecOpcodeMapIsLegal : Prop :=
    OpcodeMap.wf opcodeMap

/-- Decode refuses exactly the 213 opcode values the spec lists as illegal. Which bytes are illegal moves with `OPCODE_MAP`, whose 36 values are decision D1 (log 1). -/
def Obligations.UnassignedBytesAreRefused : Prop :=
    ∀ w : Window, decode w = .error (.unassignedOpcode w.b0) ↔
    illegalRanges.any (fun r => r.1 ≤ w.b0.toNat && w.b0.toNat ≤ r.2) = true

/-- Words written out from the table decode to the instructions they stand for. A sanity statement. The first seven opcodes are attested by the source; the other five are decision D1 (log 1). -/
def Obligations.WordsDecodeAsTheTableSays : Prop :=
    decode ⟨0x3E#8, 0x09#8, 0x90#8⟩ = .ok (.mviA 0x09#8) ∧
    decode ⟨0x90#8, 0xD3#8, 0x03#8⟩ = .ok .subB ∧
    decode ⟨0xD3#8, 0x03#8, 0xC9#8⟩ = .ok (.outPort 0x03#8) ∧
    decode ⟨0xC9#8, 0x3E#8, 0x04#8⟩ = .ok .ret ∧
    decode ⟨0x06#8, 0x02#8, 0xD3#8⟩ = .ok (.mviB 0x02#8) ∧
    decode ⟨0xCD#8, 0x00#8, 0x00#8⟩ = .ok (.call 0x0000#16) ∧
    decode ⟨0x76#8, 0x00#8, 0x00#8⟩ = .ok .hlt ∧
    decode ⟨0xEE#8, 0x3C#8, 0xD3#8⟩ = .ok (.xri 0x3C#8) ∧
    decode ⟨0x3A#8, 0xFE#8, 0xFF#8⟩ = .ok (.lda 0xFFFE#16) ∧
    decode ⟨0xC2#8, 0x05#8, 0x00#8⟩ = .ok (.jnz 0x0005#16) ∧
    decode ⟨0xDB#8, 0x01#8, 0x17#8⟩ = .ok (.inPort 0x01#8) ∧
    decode ⟨0x17#8, 0xD3#8, 0x03#8⟩ = .ok .ral

/-- When the bytes at PC decode to i and the machine may step, step is exec of i. The per-instruction statements reach a run through this one. -/
def Obligations.StepRunsTheDecodedInstruction : Prop :=
    ∀ (s : State) (i : Instr), s.canStep → decode (fetchWindow s) = .ok i → step s = exec i s

/-- If the bytes of an instruction stand at PC in memory, step is exec of that instruction. The bytes after the instruction do not matter. Above 0xFFFF the fetch reads the padding (D4, log 4). -/
def Obligations.StepRunsTheEncodedInstruction : Prop :=
    ∀ (s : State) (i : Instr), s.canStep →
    (∀ k < (encode i).length, fetchByte s (s.pc.toNat + k) = (encode i).getD k 0x00#8) →
    step s = exec i s

/-- An instruction whose store overlaps its own bytes uses the operand that was in memory before. All bytes are fetched and decoded before any state is written (R49). The operand is the one of the state before the step, also when the store falls on the instruction itself. -/
def Obligations.OperandsAreFetchedBeforeAnyWrite : Prop :=
    ∀ s : State, s.canStep →
    (∀ i, decode (fetchWindow s) = .ok i → step s = exec i s) ∧
    (∀ p, decode (fetchWindow s) = .ok (.sta p) →
      p = (fetchWindow s).op16 ∧ ∃ t, step s = .next t ∧ Memory.read t.mem p.toNat = s.a ∧
        ∀ x, x ≠ p.toNat → Memory.read t.mem x = Memory.read s.mem x) ∧
    (∀ p, decode (fetchWindow s) = .ok (.call p) →
      p = (fetchWindow s).op16 ∧ ∃ t, step s = .next t ∧ t.pc = p)

/-- A running, unfaulted machine always has a next state, at every PC and with any memory. The step is total: any byte at PC is executed or taken as a decode error; no address and no operand can stop it. That the faulting step is a next state (log 6) and that a held IN answers the same state (log 9) are the model's choices. -/
def Obligations.EnabledStepAlwaysAnswersNext : Prop :=
    ∀ s : State, s.canStep → ∃ t, step s = .next t

/-- A faulted machine answers its fault and a halted one is refused, neither has a next state. The spec says there is no step; that it shows as a fault outcome (R166) and as a refusal (U12) is the model's choice (log 6, log 7). -/
def Obligations.StoppedMachineHasNoStep : Prop :=
    ∀ s : State,
    (∀ f, s.fault = some f → step s = .fault f) ∧
    (s.fault = none → s.run = .halted → step s = .refused .halted)

/-- An unassigned opcode sets FAULT to (opcode, PC), changes nothing else, and stops the machine. Taking the one exception (R160): precise, nothing but `FAULT` changes. "No step" is stated as: step answers no next state. -/
def Obligations.DecodeErrorLatchesOpcodeAndPc : Prop :=
    ∀ s : State, s.canStep →
    ((∀ m ∈ Mnemonic.all, opcodeMap m ≠ fetchByte s s.pc.toNat) →
      step s = .next { s with fault := some (.decodeError (fetchByte s s.pc.toNat) s.pc) } ∧
      ∀ u, step { s with fault := some (.decodeError (fetchByte s s.pc.toNat) s.pc) } ≠ .next u) ∧
    (∀ t, step s = .next t → t.fault ≠ none →
      (∀ m ∈ Mnemonic.all, opcodeMap m ≠ fetchByte s s.pc.toNat) ∧
      t.fault = some (.decodeError (fetchByte s s.pc.toNat) s.pc))

/-- After a step the machine may step again, or has halted normally, or has faulted. The two ends of a run: `HLT`, or a decode error. -/
def Obligations.RunEndsByHaltOrByFault : Prop :=
    ∀ s t : State, s.canStep → step s = .next t →
    t.canStep ∨ (t.endedByHalt ∧ decode (fetchWindow s) = .ok .hlt) ∨
      ∃ opcode pc, t.endedByFault opcode pc

/-- ADD_B, ADD_C, SUB_C complete: A is the sum or difference modulo 256, flags from it, PC + 1. Every state. PC is reduced modulo 65536: the spec's decision D3 (log 3). -/
def Obligations.AddAndSubtractCWriteModulo256 : Prop :=
    ∀ s : State,
    exec .addB s = .next (afterAcc s (BitVec.ofNat 8 ((s.a.toNat + s.b.toNat) % 256)) 1) ∧
    exec .addC s = .next (afterAcc s (BitVec.ofNat 8 ((s.a.toNat + s.c.toNat) % 256)) 1) ∧
    exec .subC s = .next (afterAcc s (BitVec.ofNat 8 ((s.a.toNat + (256 - s.c.toNat)) % 256)) 1)

/-- SUB_B (opcode 0x90) completes: A is A - B modulo 256, flags from it, PC + 1, nothing else. R82 whole; the opcode is attested. PC is stated where no wrap occurs; the wrap is decision D3 and stands in another statement. -/
def Obligations.SubtractBWholeRule : Prop :=
    encode .subB = [0x90#8] ∧ ∀ s : State, ∃ t, exec .subB s = .next t ∧
    (t.a.toNat : Int) = ((s.a.toNat : Int) - (s.b.toNat : Int)) % 256 ∧
    t.sign = t.a.getLsbD 7 ∧ t.zero = decide (t.a = 0x00#8) ∧
    (s.pc.toNat + 1 < 65536 → t.pc.toNat = s.pc.toNat + 1) ∧
    t.b = s.b ∧ t.c = s.c ∧ t.run = s.run ∧ t.fault = s.fault ∧ t.input = s.input ∧
    t.output = s.output ∧ ∀ x, Memory.read t.mem x = Memory.read s.mem x

/-- ANA_B, ANA_C, ANI complete: each bit of A is the AND of the operands' bits, flags from it. Every state and every immediate. PC is reduced modulo 65536: the spec's decision D3 (log 3). -/
def Obligations.AndActsOnEveryBit : Prop :=
    ∀ (s : State) (op8 : Byte), ∃ v w x : Byte,
    exec .anaB s = .next (afterAcc s v 1) ∧ exec .anaC s = .next (afterAcc s w 1) ∧
    exec (.ani op8) s = .next (afterAcc s x 2) ∧
    ∀ k < 8, v.getLsbD k = (s.a.getLsbD k && s.b.getLsbD k) ∧
      w.getLsbD k = (s.a.getLsbD k && s.c.getLsbD k) ∧ x.getLsbD k = (s.a.getLsbD k && op8.getLsbD k)

/-- ORA_B, ORA_C, ORI complete: each bit of A is the OR of the operands' bits, flags from it. Every state and every immediate. PC is reduced modulo 65536: the spec's decision D3 (log 3). -/
def Obligations.OrActsOnEveryBit : Prop :=
    ∀ (s : State) (op8 : Byte), ∃ v w x : Byte,
    exec .oraB s = .next (afterAcc s v 1) ∧ exec .oraC s = .next (afterAcc s w 1) ∧
    exec (.ori op8) s = .next (afterAcc s x 2) ∧
    ∀ k < 8, v.getLsbD k = (s.a.getLsbD k || s.b.getLsbD k) ∧
      w.getLsbD k = (s.a.getLsbD k || s.c.getLsbD k) ∧ x.getLsbD k = (s.a.getLsbD k || op8.getLsbD k)

/-- XRA_B, XRA_C, XRI complete: each bit of A is the exclusive OR; XRI advances PC by 1, not 2. Every state and every immediate; `XRI` advances by 1 although its encoding has 2 bytes. PC is reduced modulo 65536: the spec's decision D3 (log 3). -/
def Obligations.ExclusiveOrActsOnEveryBit : Prop :=
    ∀ (s : State) (op8 : Byte), ∃ v w x : Byte,
    exec .xraB s = .next (afterAcc s v 1) ∧ exec .xraC s = .next (afterAcc s w 1) ∧
    exec (.xri op8) s = .next (afterAcc s x 1) ∧ (encode (.xri op8)).length = 2 ∧
    ∀ k < 8, v.getLsbD k = (s.a.getLsbD k ^^ s.b.getLsbD k) ∧
      w.getLsbD k = (s.a.getLsbD k ^^ s.c.getLsbD k) ∧ x.getLsbD k = (s.a.getLsbD k ^^ op8.getLsbD k)

/-- After XRI the next step fetches its opcode from the XRI's own operand byte. The `XRI` quirk. The opcode 0xEE is decision D1 (log 1). -/
def Obligations.XriOperandByteIsTheNextOpcode : Prop :=
    ∀ (s : State) (op8 : Byte), s.canStep → s.pc.toNat < 0xFFFF →
    fetchByte s s.pc.toNat = 0xEE#8 → fetchByte s (s.pc.toNat + 1) = op8 →
    ∃ t, step s = .next t ∧ t.a = s.a ^^^ op8 ∧ t.pc.toNat = s.pc.toNat + 1 ∧ t.canStep ∧
      (fetchWindow t).b0 = op8

/-- CMA, INR_A, DCR_A complete: A is 255 - A, A + 1, A - 1 modulo 256, flags from it, PC + 1. Every state. PC is reduced modulo 65536: the spec's decision D3 (log 3). -/
def Obligations.ComplementAndUnitStepsOfA : Prop :=
    ∀ s : State,
    exec .cma s = .next (afterAcc s (BitVec.ofNat 8 (255 - s.a.toNat)) 1) ∧
    exec .inrA s = .next (afterAcc s (BitVec.ofNat 8 ((s.a.toNat + 1) % 256)) 1) ∧
    exec .dcrA s = .next (afterAcc s (BitVec.ofNat 8 ((s.a.toNat + 255) % 256)) 1)

/-- INR_B, INR_C, DCR_B, DCR_C complete: the register steps by 1 modulo 256, flags and A unchanged. Every state. PC is reduced modulo 65536: the spec's decision D3 (log 3). -/
def Obligations.UnitStepsOfBAndCKeepTheFlags : Prop :=
    ∀ s : State,
    exec .inrB s = .next { s with b := BitVec.ofNat 8 ((s.b.toNat + 1) % 256), pc := pcAfter s 1 } ∧
    exec .inrC s = .next { s with c := BitVec.ofNat 8 ((s.c.toNat + 1) % 256), pc := pcAfter s 1 } ∧
    exec .dcrB s = .next { s with b := BitVec.ofNat 8 ((s.b.toNat + 255) % 256), pc := pcAfter s 1 } ∧
    exec .dcrC s = .next { s with c := BitVec.ofNat 8 ((s.c.toNat + 255) % 256), pc := pcAfter s 1 }

/-- MOV_AB and MOV_AC complete: A is the source register, flags from it, PC + 1, nothing else. Every state. Destination first: decision D10 (log 12). PC is reduced modulo 65536: the spec's decision D3 (log 3). -/
def Obligations.MovesToALatchTheFlags : Prop :=
    ∀ s : State, exec .movAB s = .next (afterAcc s s.b 1) ∧ exec .movAC s = .next (afterAcc s s.c 1)

/-- MOV_BA, MOV_BC, MOV_CA, MOV_CB, MVI_C complete: the destination is the source, flags unchanged. Every state. Destination first: decision D10 (log 12). PC is reduced modulo 65536: the spec's decision D3 (log 3). -/
def Obligations.MovesToBAndCKeepTheFlags : Prop :=
    ∀ (s : State) (op8 : Byte),
    exec .movBA s = .next { s with b := s.a, pc := pcAfter s 1 } ∧
    exec .movBC s = .next { s with b := s.c, pc := pcAfter s 1 } ∧
    exec .movCA s = .next { s with c := s.a, pc := pcAfter s 1 } ∧
    exec .movCB s = .next { s with c := s.b, pc := pcAfter s 1 } ∧
    exec (.mviC op8) s = .next { s with c := op8, pc := pcAfter s 2 }

/-- MVI_A (opcode 0x3E) completes: A is the immediate, flags from it, PC + 2, nothing else. R116 whole; the opcode is attested. PC is stated where no wrap occurs; the wrap is decision D3 and stands in another statement. -/
def Obligations.MoveImmediateToAWholeRule : Prop :=
    ∀ op8 : Byte, encode (.mviA op8) = [0x3E#8, op8] ∧ ∀ s : State, ∃ t, exec (.mviA op8) s = .next t ∧
    t.a = op8 ∧ t.sign = op8.getLsbD 7 ∧ t.zero = decide (op8 = 0x00#8) ∧
    (s.pc.toNat + 2 < 65536 → t.pc.toNat = s.pc.toNat + 2) ∧
    t.b = s.b ∧ t.c = s.c ∧ t.run = s.run ∧ t.fault = s.fault ∧ t.input = s.input ∧
    t.output = s.output ∧ ∀ x, Memory.read t.mem x = Memory.read s.mem x

/-- MVI_B (opcode 0x06) completes: B is the immediate, flags unchanged, PC + 2, nothing else. R117 whole; the opcode is attested. PC is stated where no wrap occurs; the wrap is decision D3 and stands in another statement. -/
def Obligations.MoveImmediateToBWholeRule : Prop :=
    ∀ op8 : Byte, encode (.mviB op8) = [0x06#8, op8] ∧ ∀ s : State, ∃ t, exec (.mviB op8) s = .next t ∧
    t.b = op8 ∧ t.sign = s.sign ∧ t.zero = s.zero ∧
    (s.pc.toNat + 2 < 65536 → t.pc.toNat = s.pc.toNat + 2) ∧
    t.a = s.a ∧ t.c = s.c ∧ t.run = s.run ∧ t.fault = s.fault ∧ t.input = s.input ∧
    t.output = s.output ∧ ∀ x, Memory.read t.mem x = Memory.read s.mem x

/-- LDA completes at every address: A is the byte of memory there, flags from it, PC + 3, nothing else. Every state and address. PC is reduced modulo 65536: the spec's decision D3 (log 3). -/
def Obligations.LoadReadsTheByteAtItsAddress : Prop :=
    ∀ (s : State) (op16 : Word),
    exec (.lda op16) s = .next (afterAcc s (Memory.read s.mem op16.toNat) 3)

/-- STA completes at every address: the byte at op16 is A, every other byte and all else unchanged. Every state and address. PC is reduced modulo 65536: the spec's decision D3 (log 3). -/
def Obligations.StoreWritesOneByteOnly : Prop :=
    ∀ (s : State) (op16 : Word), ∃ t, exec (.sta op16) s = .next t ∧
    Memory.read t.mem (effectiveAddr op16).toNat = s.a ∧ effectiveAddr op16 = op16 ∧
    (∀ x, x ≠ (effectiveAddr op16).toNat → Memory.read t.mem x = Memory.read s.mem x) ∧
    t = { s with mem := t.mem, pc := pcAfter s 3 }

/-- JMP, JZ, JNZ, JM complete: PC is op16 if taken, else PC + 3; nothing else changes. Every state and target. PC is reduced modulo 65536: the spec's decision D3 (log 3). -/
def Obligations.JumpsReplaceOrAdvancePc : Prop :=
    ∀ (s : State) (op16 : Word),
    exec (.jmp op16) s = .next { s with pc := op16 } ∧
    exec (.jz op16) s = .next { s with pc := if s.zero = true then op16 else pcAfter s 3 } ∧
    exec (.jnz op16) s = .next { s with pc := if s.zero = false then op16 else pcAfter s 3 } ∧
    exec (.jm op16) s = .next { s with pc := if s.sign = true then op16 else pcAfter s 3 }

/-- CALL completes: the link cell holds PC + 3 low byte first, PC is op16, nothing else changes. Every state and target. That the cell is memory is decision D19 (log 14), its byte order D2 (log 2). PC is reduced modulo 65536: the spec's decision D3 (log 3). -/
def Obligations.CallStoresTheReturnAddressInTheLinkCell : Prop :=
    ∀ (s : State) (op16 : Word), ∃ t, exec (.call op16) s = .next t ∧
    (Memory.read t.mem linkAddr.toNat).toNat = (s.pc.toNat + 3) % 65536 % 256 ∧
    (Memory.read t.mem (linkAddr.toNat + 1)).toNat = (s.pc.toNat + 3) % 65536 / 256 ∧
    (∀ x, x ≠ linkAddr.toNat → x ≠ linkAddr.toNat + 1 → Memory.read t.mem x = Memory.read s.mem x) ∧
    linkAddr = 0xFFFE#16 ∧ t = { s with mem := t.mem, pc := op16 }

/-- RET completes: PC is the 16-bit value of the link cell, which is unchanged, and nothing else changes. Every state; there is no empty link. That the cell is memory is decision D19 (log 14), its byte order D2 (log 2). -/
def Obligations.ReturnJumpsToTheLinkCell : Prop :=
    ∀ s : State, exec .ret s = .next { s with
    pc := BitVec.ofNat 16 ((Memory.read s.mem 0xFFFE).toNat + 256 * (Memory.read s.mem 0xFFFF).toNat) }

/-- A RET goes to the return address of the last CALL, whatever ran in between left the cell alone. The single-level link: with a second `CALL` as the call, its return address is what every later `RET` goes to, and the older one is lost. That the link is kept in the memory bytes 0xFFFE and 0xFFFF is decision D19 (log 14). PC is reduced modulo 65536: the spec's decision D3 (log 3). -/
def Obligations.ReturnGoesToTheLastCall : Prop :=
    ∀ (s t u : State) (op16 : Word) (body : List Instr), exec (.call op16) s = .next t →
    (∀ i ∈ body, ∀ x ∈ storedAddresses i, x ≠ 0xFFFE ∧ x ≠ 0xFFFF) → execList body t = some u →
    exec .ret u = .next { u with pc := pcAfter s 3 } ∧
    exec .ret { u with pc := pcAfter s 3 } = .next { u with pc := pcAfter s 3 }

/-- IN completes when a byte is supplied: A is that byte, any port, flags from it, one byte taken, PC + 2. For every byte `v` and every port. The input sequence as a list is the model's form of decision D8 (log 9). PC is reduced modulo 65536: the spec's decision D3 (log 3). -/
def Obligations.InputTakesTheOldestSuppliedByte : Prop :=
    ∀ (s : State) (port v : Byte) (rest : List Byte), s.input = v :: rest →
    exec (.inPort port) s = .next (afterAcc { s with input := rest } v 2)

/-- IN with no byte supplied holds: the state does not change for any number of steps. That the hold is a step to the same state is the model's choice (log 9). -/
def Obligations.InputWithNoByteHoldsForEver : Prop :=
    ∀ (s : State) (port : Byte), s.canStep → decode (fetchWindow s) = .ok (.inPort port) → s.input = [] →
    (∀ k, stepN k s = .next s) ∧
    ∀ v, ∃ t, step (supplyInput v s) = .next t ∧ t.a = v ∧ t.input = []

/-- OUT (opcode 0xD3) completes: one event (3, A) if the port is 3, else none; nothing else, PC + 2. R141 whole; the opcode is attested. The event is recorded at the end of the history (log 11). PC is stated where no wrap occurs. -/
def Obligations.OutputOnPortThreeOnly : Prop :=
    ∀ op8 : Byte, encode (.outPort op8) = [0xD3#8, op8] ∧ ∀ s : State, ∃ t, exec (.outPort op8) s = .next t ∧
    t.output = (if op8 = 0x03#8 then s.output ++ [⟨0x03#8, s.a⟩] else s.output) ∧
    (s.pc.toNat + 2 < 65536 → t.pc.toNat = s.pc.toNat + 2) ∧
    t.a = s.a ∧ t.b = s.b ∧ t.c = s.c ∧ t.sign = s.sign ∧ t.zero = s.zero ∧ t.run = s.run ∧
    t.fault = s.fault ∧ t.input = s.input ∧ ∀ x, Memory.read t.mem x = Memory.read s.mem x

/-- NOP completes: PC + 1 and nothing else. Every state. PC is reduced modulo 65536: the spec's decision D3 (log 3). -/
def Obligations.NoOperationOnlyAdvancesPc : Prop :=
    ∀ s : State, exec .nop s = .next { s with pc := pcAfter s 1 }

/-- RAL and RAR complete: bits move by one within A, the end bit wraps, flags from the result, PC + 1. Every state; no carry is involved. PC is reduced modulo 65536: the spec's decision D3 (log 3). -/
def Obligations.RotatesMoveEveryBitByOne : Prop :=
    ∀ s : State, ∃ l r : Byte,
    exec .ral s = .next (afterAcc s l 1) ∧ exec .rar s = .next (afterAcc s r 1) ∧
    l.getLsbD 0 = s.a.getLsbD 7 ∧ r.getLsbD 7 = s.a.getLsbD 0 ∧
    ∀ k < 7, l.getLsbD (k + 1) = s.a.getLsbD k ∧ r.getLsbD k = s.a.getLsbD (k + 1)

/-- HLT (opcode 0x76) completes: PC + 1 modulo 65536, RUN Halted, nothing else, and no further step. R145 whole, which states the reduction of PC itself; the opcode is attested. -/
def Obligations.HaltWholeRule : Prop :=
    encode .hlt = [0x76#8] ∧ ∀ s : State, ∃ t, exec .hlt s = .next t ∧
    t.pc.toNat = (s.pc.toNat + 1) % 65536 ∧ t = { s with pc := t.pc, run := .halted } ∧
    ∀ u, step t ≠ .next u

/-- CMA twice, RAL eight times, RAL then RAR and RAR eight times restore A. The source's §8 properties, over every state. -/
def Obligations.ComplementAndRotateRoundTrips : Prop :=
    ∀ s : State, ∀ body ∈ [[Instr.cma, .cma], List.replicate 8 .ral, List.replicate 8 .rar, [.ral, .rar]],
    ∃ t, execList body s = some t ∧ t.a = s.a ∧ t.flagsFollowA ∧ t.b = s.b ∧ t.c = s.c

/-- exec of every instruction, a held IN among them, answers a next state and leaves FAULT alone. The only exception is raised by decode; an instruction that decodes cannot raise anything. No claim of completion: the step of an `IN` with no byte supplied does not complete (R140), and that this hold answers a next state is the model's choice (D8, log 9). That exec has its effect in a stopped state too, which only the step excludes, is the model's choice (log 18). -/
def Obligations.EveryInstructionAnswersNextAndLeavesFaultAlone : Prop :=
    ∀ (i : Instr) (s : State), ∃ t, exec i s = .next t ∧ t.fault = s.fault

/-- The 23 flag-affecting instructions latch S and Z from the new A; the other 20 leave both unchanged. R18 over all 43 instructions. A held `IN` does not complete (R140), so it is not an execution. -/
def Obligations.FlagsAreLatchedByExactlyTheListedInstructions : Prop :=
    ∀ (i : Instr) (s t : State), exec i s = .next t → (i.mnemonic = .inPort → s.input ≠ []) →
    (flagAffecting i.mnemonic = true → t.sign = t.a.getLsbD 7 ∧ t.zero = decide (t.a = 0x00#8)) ∧
    (flagAffecting i.mnemonic = false → t.sign = s.sign ∧ t.zero = s.zero) ∧
    (Mnemonic.all.filter flagAffecting).length = 23

/-- JZ and JNZ read Z, JM reads S, and no other instruction's effect depends on a flag. R19. Flags an instruction does not write keep the changed values. -/
def Obligations.FlagsAreReadByTheConditionalJumpsOnly : Prop :=
    (∀ (i : Instr) (s t : State) (sg z : Bool), readsFlags i.mnemonic = false → exec i s = .next t →
      ∃ t', exec i (s.setFlags sg z) = .next t' ∧
        t'.setFlags t.sign t.zero = t ∧
        ((t'.sign = t.sign ∧ t'.zero = t.zero) ∨
          (t'.sign = sg ∧ t'.zero = z ∧ t.sign = s.sign ∧ t.zero = s.zero))) ∧
    (∀ (p : Word) (s : State) (sg : Bool), ∃ q r,
      exec (.jz p) s = .next (s.setPc q) ∧ exec (.jz p) (s.setFlags sg s.zero) =
        .next ((s.setFlags sg s.zero).setPc q) ∧
      exec (.jnz p) s = .next (s.setPc r) ∧ exec (.jnz p) (s.setFlags sg s.zero) =
        .next ((s.setFlags sg s.zero).setPc r)) ∧
    (∀ (p : Word) (s : State) (z : Bool), ∃ q,
      exec (.jm p) s = .next (s.setPc q) ∧ exec (.jm p) (s.setFlags s.sign z) =
        .next ((s.setFlags s.sign z).setPc q)) ∧
    (∀ (p : Word) (s t u : State), p ≠ pcPlus s.pc 3 →
      (exec (.jz p) (s.setFlags s.sign true) = .next t → exec (.jz p) (s.setFlags s.sign false) = .next u →
        t.pc ≠ u.pc) ∧
      (exec (.jnz p) (s.setFlags s.sign true) = .next t → exec (.jnz p) (s.setFlags s.sign false) = .next u →
        t.pc ≠ u.pc) ∧
      (exec (.jm p) (s.setFlags true s.zero) = .next t → exec (.jm p) (s.setFlags false s.zero) = .next u →
        t.pc ≠ u.pc))

/-- A, B and C each change only by the instructions the spec lists as writing them. The frame of the three general registers, over all 43 instructions. -/
def Obligations.OnlyListedInstructionsChangeARegister : Prop :=
    ∀ (i : Instr) (s t : State), exec i s = .next t →
    (flagAffecting i.mnemonic = false → t.a = s.a) ∧
    (writesB i.mnemonic = false → t.b = s.b) ∧
    (writesC i.mnemonic = false → t.c = s.c)

/-- Memory changes only at the address STA stores to and at the link cell for CALL. The frame of memory, over all 43 instructions. That the link cell is these two bytes of memory is decision D19 (log 14). -/
def Obligations.EveryByteNotStoredToIsUnchanged : Prop :=
    ∀ (i : Instr) (s t : State), exec i s = .next t →
    ∀ x, x ∉ storedAddresses i → Memory.read t.mem x = Memory.read s.mem x

/-- RUN changes only by HLT, the input only by IN, the output only by OUT to port 3. The frame of the run state and of the environment, over all 43 instructions. The environment as two lists, and an `IN` with no byte as a next state, are the model's form (log 9, log 11). -/
def Obligations.RunAndPortsChangeOnlyByTheirInstructions : Prop :=
    ∀ (i : Instr) (s t : State), exec i s = .next t →
    t.run = (if i = .hlt then .halted else s.run) ∧
    t.input = (if i.mnemonic = .inPort then s.input.tail else s.input) ∧
    t.output = (if i = .outPort 0x03#8 then s.output ++ [⟨0x03#8, s.a⟩] else s.output)

/-- Each instruction advances PC by its table entry or overwrites it with its target, never both. Column "PC" of the opcode map, over all 43 instructions; the wrap is decision D3 (log 3), the order of the link cell D2 (log 2), its place in memory D19 (log 14). -/
def Obligations.PcAdvancesOrIsOverwrittenAsTheTableSays : Prop :=
    ∀ (i : Instr) (s t : State), exec i s = .next t → (i.mnemonic = .inPort → s.input ≠ []) →
    match i.mnemonic.pcRule, i with
    | .advance n, _ => t.pc.toNat = (s.pc.toNat + n) % 65536 ∧
        n = (if i.mnemonic = .xri then 1 else i.mnemonic.shape.size)
    | .overwrite, .jmp p => t.pc = p
    | .overwrite, .call p => t.pc = p
    | .overwrite, .ret =>
        t.pc.toNat = (Memory.read s.mem 0xFFFE).toNat + 256 * (Memory.read s.mem 0xFFFF).toNat
    | .conditional, .jz p => t.pc = if s.zero = true then p else pcAfter s 3
    | .conditional, .jnz p => t.pc = if s.zero = true then pcAfter s 3 else p
    | .conditional, .jm p => t.pc = if s.sign = true then p else pcAfter s 3
    | _, _ => False

/-- No instruction but IN depends on what the environment supplies. Nothing outside the core influences an instruction other than `IN`: the step is deterministic except for the value of `PortIn`. -/
def Obligations.OnlyInputReadsTheEnvironment : Prop :=
    ∀ (i : Instr) (s t : State) (input : List Byte), i.mnemonic ≠ .inPort → exec i s = .next t →
    exec i (s.setInput input) = .next (t.setInput input)

/-- An LDA after an STA loads the stored byte if the addresses agree, else what was there. Program order; the link cell is no exception, which is the spec's decision D19 (log 14). -/
def Obligations.LoadSeesTheMostRecentStore : Prop :=
    ∀ (s : State) (p q : Word), ∃ u, execList [.sta p, .lda q] s = some u ∧
    u.a = if q = p then s.a else Memory.read s.mem q.toNat

/-- A stored byte is what the next fetch of its address reads, and the padding never changes. Self-modifying code works (D15, log 15); nothing reaches the padding (D4, log 4). The spec's decisions on what CALL writes: the link cell is the memory bytes 0xFFFE and 0xFFFF (D19, log 14), the low byte at 0xFFFE (D2, log 2), and the return address is PC + 3 modulo 65536 (D3, log 3). -/
def Obligations.FetchSeesEveryStore : Prop :=
    ∀ (s t : State) (p : Word) (x : Nat),
    (exec (.sta p) s = .next t → fetchByte t x = if x = p.toNat then s.a else fetchByte s x) ∧
    (exec (.call p) s = .next t → fetchByte t x =
      if x = 0xFFFE then loByte (pcAfter s 3) else if x = 0xFFFF then hiByte (pcAfter s 3)
      else fetchByte s x) ∧
    (∀ i, exec i s = .next t → 65536 ≤ x → fetchByte s x = 0x00#8 ∧ fetchByte t x = 0x00#8)

/-- At PC 0xFFFF both operands read 0; at 0xFFFE op16 is the byte at 0xFFFF; no wrap to 0x0000. The padding, decision D4 (log 4). -/
def Obligations.OperandsPastTheTopReadZero : Prop :=
    ∀ s : State,
    (s.pc = 0xFFFF#16 → (fetchWindow s).op8 = 0x00#8 ∧ (fetchWindow s).op16 = 0x0000#16) ∧
    (s.pc = 0xFFFE#16 → (fetchWindow s).op8 = Memory.read s.mem 0xFFFF ∧
      (fetchWindow s).op16.toNat = (Memory.read s.mem 0xFFFF).toNat)

/-- MemRead and MemWrite of one and two bytes read and write exactly their bytes, low byte first. R45 and R46. For n = 2 at every address whose two bytes exist; the only use is 0xFFFE, the highest of them. -/
def Obligations.MemoryPrimitivesReadAndWriteBytes : Prop :=
    ∀ (s : State) (addr : Word) (v : Byte) (w : Word) (x : Nat),
    memRead8 s addr = Memory.read s.mem addr.toNat ∧
    Memory.read (memWrite8 s addr v).mem x = (if x = addr.toNat then v else Memory.read s.mem x) ∧
    (addr.toNat < 0xFFFF →
      (memRead16 s addr).toNat =
        (Memory.read s.mem addr.toNat).toNat + 256 * (Memory.read s.mem (addr.toNat + 1)).toNat ∧
      (Memory.read (memWrite16 s addr w).mem addr.toNat).toNat = w.toNat % 256 ∧
      (Memory.read (memWrite16 s addr w).mem (addr.toNat + 1)).toNat = w.toNat / 256 ∧
      (x ≠ addr.toNat → x ≠ addr.toNat + 1 →
        Memory.read (memWrite16 s addr w).mem x = Memory.read s.mem x))

/-- Two memories in canonical form that read alike at every address are the same list. The representation of `MEM` is the model's (log 16): equal memories are equal data. -/
def Obligations.CanonicalMemoriesWithEqualBytesAreEqual : Prop :=
    ∀ m n : Memory, Memory.wf m → Memory.wf n → (∀ x, Memory.read m x = Memory.read n x) → m = n

/-- Every step keeps: canonical memory, a true fault record, output on port 3 only, flags true of A. The machine's invariant, from every state that has it. The canonical form is the model's (log 16); the reset flags are decision D5 (log 5). -/
def Obligations.EveryStepKeepsTheInvariant : Prop :=
    ∀ s t : State, s.Inv → step s = .next t → t.Inv

/-- The machine right after reset has the invariant. The reset values of the flags and of FAULT are decision D5 (log 5), the empty output the model's (log 10). -/
def Obligations.InvariantHoldsAfterReset : Prop :=
    State.reset.Inv

/-- Once an instruction has written A the flags equal S and Z of A at every later step. The standing relation of the flags to `A`. That it fails at reset rests on decision D5 (log 5). -/
def Obligations.FlagsFollowTheAccumulatorOnceWritten : Prop :=
    (∀ (i : Instr) (s t : State), flagAffecting i.mnemonic = true → (i.mnemonic = .inPort → s.input ≠ []) →
      exec i s = .next t → t.flagsFollowA) ∧
    (∀ s t : State, s.flagsFollowA → step s = .next t → t.flagsFollowA) ∧
    ¬ State.reset.flagsFollowA

/-- Reset leaves A, B, C and every byte of memory 0x00, and a loaded image is then what memory holds. R12 and R27: the values the source gives. -/
def Obligations.ResetZeroesRegistersAndMemory : Prop :=
    State.reset.a = 0x00#8 ∧ State.reset.b = 0x00#8 ∧ State.reset.c = 0x00#8 ∧
    (∀ x, Memory.read State.reset.mem x = 0x00#8 ∧ fetchByte State.reset x = 0x00#8) ∧
    (∀ s : State, (hostReset s).a = 0x00#8 ∧ (hostReset s).b = 0x00#8 ∧ (hostReset s).c = 0x00#8 ∧
      ∀ x, fetchByte (hostReset s) x = 0x00#8) ∧
    ∀ (s : State) (bytes : List Byte), bytes.length ≤ 65536 → ∃ t, loadProgram bytes (hostReset s) = some t ∧
      ∀ x, Memory.read t.mem x = bytes.getD x 0x00#8

/-- Reset leaves PC 0x0000, both flags clear, RUN Running and no fault. Decision D5 (log 5). That a reset keeps the environment's sequences is the model's choice (log 8). -/
def Obligations.ResetValuesTheSpecDecides : Prop :=
    (State.reset.pc = 0x0000#16 ∧ State.reset.sign = false ∧ State.reset.zero = false ∧ State.reset.canStep) ∧
    ∀ s : State, hostReset s = { State.reset with input := s.input, output := s.output }

/-- loadProgram changes memory only, refuses more than 65536 bytes, and commutes with setPC. The refusal of a longer image is decision D4 (log 22). -/
def Obligations.LoaderWritesOnlyMemoryAndPc : Prop :=
    ∀ (s : State) (bytes : List Byte) (start : Word),
    (bytes.length ≤ 65536 → ∃ t, loadProgram bytes s = some t ∧ t = { s with mem := t.mem } ∧
      (∀ x < bytes.length, Memory.read t.mem x = bytes.getD x 0x00#8) ∧
      (∀ x, bytes.length ≤ x → Memory.read t.mem x = Memory.read s.mem x)) ∧
    (65536 < bytes.length → loadProgram bytes s = none) ∧
    s.setPc start = { s with pc := start } ∧
    (loadProgram bytes s).map (fun t => t.setPc start) = loadProgram bytes (s.setPc start)

/-- After reset, load and setPC the first step runs the image's instruction at the start address. How a program comes to run (log 17). -/
def Obligations.BootRunsTheInstructionAtTheStart : Prop :=
    ∀ (s : State) (front rest : List Byte) (i : Instr) (start : Word), front.length = start.toNat →
    (front ++ encode i ++ rest).length ≤ 65536 →
    ∃ t, boot (front ++ encode i ++ rest) start s = some t ∧ t.pc = start ∧ step t = exec i t

/-- In memory of zeros the machine executes NOPs for ever and PC wraps. No automatic stop. That 0x00 is `NOP` is decision D1 (log 1). PC is reduced modulo 65536: the spec's decision D3 (log 3). -/
def Obligations.EmptyMemoryIsANopSlide : Prop :=
    ∀ (s : State) (k : Nat), s.canStep → s.mem = [] →
    stepN k s = .next { s with pc := pcAfter s k }
end

