-- ==== Sys2Proof/Laws/Decode.lean ====
section
/-! SUPPORT. What the decoder's lookup and the decoder can answer, once, for any opcode map. -/

namespace Sys2Proof

/-- The list of mnemonics is complete. -/
theorem Mnemonic.mem_all (m : Mnemonic) : m ∈ Mnemonic.all := by
  cases m <;> decide

/-- A mnemonic found has the opcode looked for. -/
theorem OpcodeMap.find_some {map : OpcodeMap} {opcode : Byte} {m : Mnemonic}
    (h : OpcodeMap.find map opcode = some m) : map m = opcode := by
  simpa using List.find?_some h

/-- Nothing is found exactly when no mnemonic has the opcode. -/
theorem OpcodeMap.find_none {map : OpcodeMap} {opcode : Byte} :
    OpcodeMap.find map opcode = none ↔ ∀ m : Mnemonic, map m ≠ opcode := by
  unfold OpcodeMap.find
  rw [List.find?_eq_none]
  constructor
  · intro h m
    simpa using h m (Mnemonic.mem_all m)
  · intro h m _
    simpa using h m

/-- All that decode can answer: the instruction of a mnemonic the opcode belongs to, with the window's
operands, or a refusal that names an opcode belonging to none. -/
theorem decodeWith_cases (map : OpcodeMap) (w : Window) :
    (∃ m : Mnemonic, map m = w.b0 ∧ decodeWith map w = .ok (m.withOperands w)) ∨
    ((∀ m : Mnemonic, map m ≠ w.b0) ∧ decodeWith map w = .error (.unassignedOpcode w.b0)) := by
  unfold decodeWith
  cases h : OpcodeMap.find map w.b0 with
  | some m => exact .inl ⟨m, OpcodeMap.find_some h, rfl⟩
  | none => exact .inr ⟨OpcodeMap.find_none.1 h, rfl⟩

/-- The mnemonic of the instruction built from a mnemonic is that mnemonic. -/
@[simp] theorem Mnemonic.mnemonic_withOperands (m : Mnemonic) (w : Window) :
    (m.withOperands w).mnemonic = m := by
  cases m <;> rfl

end Sys2Proof
end

