-- ==== Sys2Proof/Laws/Memory.lean ====
section
/-! SUPPORT. The laws of `MEM`: a read after a write, the canonical form kept by every operation, and
equal contents being equal lists. The read laws need no canonical form. -/

namespace Sys2Proof.Machine

@[simp] theorem Memory.read_nil (addr : Nat) : Memory.read [] addr = 0x00#8 := rfl

theorem Memory.read_cons (cell : Host.Cell) (m : Memory) (addr : Nat) :
    Memory.read (cell :: m) addr = if cell.1 = addr then cell.2 else Memory.read m addr := rfl

/-! ### Reads after updates -/

theorem Memory.read_erase (m : Memory) (addr other : Nat) :
    Memory.read (Memory.erase m addr) other =
      if other = addr then unlistedByte addr else Memory.read m other := by
  induction m with
  | nil => simp [Memory.erase, Memory.read, unlistedByte]
  | cons cell rest ih =>
    simp only [Memory.erase]
    by_cases h : cell.1 = addr
    · rw [if_pos h, ih, Memory.read_cons]
      by_cases ho : other = addr
      · rw [if_pos ho, if_pos ho]
      · rw [if_neg ho, if_neg ho, if_neg (fun e => ho (e.symm.trans h))]
    · rw [if_neg h, Memory.read_cons, Memory.read_cons, ih]
      by_cases ho : other = addr
      · rw [if_pos ho, if_pos ho, if_neg (fun e => h (e.trans ho))]
      · rw [if_neg ho, if_neg ho]

/-- An entry inserted where no entry of its address stands is what its address reads as. -/
theorem Memory.read_insert (m : Memory) (addr other : Nat) (v : Byte)
    (h : ∀ cell ∈ m, cell.1 ≠ addr) :
    Memory.read (Memory.insert m addr v) other = if other = addr then v else Memory.read m other := by
  induction m with
  | nil =>
    simp only [Memory.insert, Memory.read_cons]
    by_cases ho : other = addr
    · rw [if_pos ho, if_pos ho.symm]
    · rw [if_neg ho, if_neg (fun e => ho e.symm)]
  | cons cell rest ih =>
    have hc : cell.1 ≠ addr := h cell (by simp)
    have hr : ∀ c ∈ rest, c.1 ≠ addr := fun c hm => h c (by simp [hm])
    simp only [Memory.insert]
    split
    · rw [Memory.read_cons]
      by_cases ho : other = addr
      · rw [if_pos ho, if_pos ho.symm]
      · rw [if_neg ho, if_neg (fun e => ho e.symm)]
    · rw [Memory.read_cons, Memory.read_cons, ih hr]
      by_cases ho : other = addr
      · rw [if_pos ho, if_pos ho, if_neg (fun e => hc (e.trans ho))]
      · rw [if_neg ho, if_neg ho]

theorem Memory.mem_erase {m : Memory} {addr : Nat} {cell : Host.Cell} :
    cell ∈ Memory.erase m addr ↔ cell ∈ m ∧ cell.1 ≠ addr := by
  induction m with
  | nil => simp [Memory.erase]
  | cons head rest ih =>
    simp only [Memory.erase]
    split
    · rename_i h
      constructor
      · intro hm
        exact ⟨List.mem_cons_of_mem _ (ih.1 hm).1, (ih.1 hm).2⟩
      · rintro ⟨hm, hne⟩
        rcases List.mem_cons.1 hm with rfl | hm
        · exact absurd h hne
        · exact ih.2 ⟨hm, hne⟩
    · rename_i h
      constructor
      · intro hm
        rcases List.mem_cons.1 hm with rfl | hm
        · exact ⟨List.mem_cons_self, h⟩
        · exact ⟨List.mem_cons_of_mem _ (ih.1 hm).1, (ih.1 hm).2⟩
      · rintro ⟨hm, hne⟩
        rcases List.mem_cons.1 hm with rfl | hm
        · exact List.mem_cons_self
        · exact List.mem_cons_of_mem _ (ih.2 ⟨hm, hne⟩)

/-- A read after a write: the byte written at its address, every other address as before. -/
theorem Memory.read_write (m : Memory) (addr other : Nat) (v : Byte) :
    Memory.read (Memory.write m addr v) other = if other = addr then v else Memory.read m other := by
  unfold Memory.write
  split
  · rename_i hv
    rw [Memory.read_erase, ← hv]
  · rw [Memory.read_insert _ _ _ _ (fun c hc => (Memory.mem_erase.1 hc).2), Memory.read_erase]
    by_cases ho : other = addr
    · rw [if_pos ho, if_pos ho]
    · rw [if_neg ho, if_neg ho, if_neg ho]

@[simp] theorem Memory.read_write_self (m : Memory) (addr : Nat) (v : Byte) :
    Memory.read (Memory.write m addr v) addr = v := by
  rw [Memory.read_write, if_pos rfl]

theorem Memory.read_write_other (m : Memory) {addr other : Nat} (v : Byte) (h : other ≠ addr) :
    Memory.read (Memory.write m addr v) other = Memory.read m other := by
  rw [Memory.read_write, if_neg h]

/-! ### The canonical form -/

theorem Memory.mem_insert {m : Memory} {addr : Nat} {v : Byte} {cell : Host.Cell} :
    cell ∈ Memory.insert m addr v ↔ cell = (addr, v) ∨ cell ∈ m := by
  induction m with
  | nil => simp [Memory.insert]
  | cons head rest ih =>
    simp only [Memory.insert]
    split
    · simp
    · rw [List.mem_cons, List.mem_cons, ih]
      constructor
      · rintro (h | h | h)
        · exact .inr (.inl h)
        · exact .inl h
        · exact .inr (.inr h)
      · rintro (h | h | h)
        · exact .inr (.inl h)
        · exact .inl h
        · exact .inr (.inr h)

theorem Memory.rising_erase {m : Memory} (addr : Nat) (h : m.Pairwise (fun x y => x.1 < y.1)) :
    (Memory.erase m addr).Pairwise (fun x y => x.1 < y.1) := by
  induction m with
  | nil => exact List.Pairwise.nil
  | cons head rest ih =>
    obtain ⟨hh, hr⟩ := List.pairwise_cons.1 h
    simp only [Memory.erase]
    split
    · exact ih hr
    · exact List.pairwise_cons.2 ⟨fun c hc => hh c (Memory.mem_erase.1 hc).1, ih hr⟩

theorem Memory.rising_insert {m : Memory} {addr : Nat} (v : Byte)
    (h : m.Pairwise (fun x y => x.1 < y.1)) (hn : ∀ cell ∈ m, cell.1 ≠ addr) :
    (Memory.insert m addr v).Pairwise (fun x y => x.1 < y.1) := by
  induction m with
  | nil => simp [Memory.insert]
  | cons head rest ih =>
    obtain ⟨hh, hr⟩ := List.pairwise_cons.1 h
    simp only [Memory.insert]
    split
    · rename_i hlt
      refine List.pairwise_cons.2 ⟨fun c hc => ?_, h⟩
      rcases List.mem_cons.1 hc with rfl | hc
      · exact hlt
      · exact Nat.lt_trans hlt (hh c hc)
    · rename_i hlt
      have hne : head.1 ≠ addr := hn head List.mem_cons_self
      refine List.pairwise_cons.2
        ⟨fun c hc => ?_, ih hr (fun c hc => hn c (List.mem_cons_of_mem _ hc))⟩
      rcases Memory.mem_insert.1 hc with rfl | hc
      · exact lt_of_le_of_ne (Nat.le_of_not_lt hlt) hne
      · exact hh c hc

@[simp] theorem Memory.wf_nil : Memory.wf [] := by decide

/-- A write at an address that exists keeps the canonical form. -/
theorem Memory.wf_write {m : Memory} {addr : Nat} (v : Byte) (h : Memory.wf m)
    (ha : addr < Config.memSize) : Memory.wf (Memory.write m addr v) := by
  obtain ⟨hp, hc⟩ := h
  unfold Memory.write
  split
  · exact ⟨Memory.rising_erase addr hp, fun c hm => hc c (Memory.mem_erase.1 hm).1⟩
  · rename_i hv
    refine ⟨Memory.rising_insert v (Memory.rising_erase addr hp)
      (fun c hm => (Memory.mem_erase.1 hm).2), fun c hm => ?_⟩
    rcases Memory.mem_insert.1 hm with rfl | hm
    · exact ⟨ha, hv⟩
    · exact hc c (Memory.mem_erase.1 hm).1

/-- Storing bytes keeps the canonical form, wherever they would lie. -/
theorem Memory.wf_storeBytes (bytes : List Byte) {m : Memory} (addr : Nat) (h : Memory.wf m) :
    Memory.wf (Memory.storeBytes m addr bytes) := by
  induction bytes generalizing m addr with
  | nil => exact h
  | cons v rest ih =>
    simp only [Memory.storeBytes]
    split
    · rename_i ha
      exact ih (addr + 1) (Memory.wf_write v h ha)
    · exact ih (addr + 1) h

/-- What storing bytes leaves at an address: the byte of the list that lies there, if one does and the
address exists, else what stood there. -/
theorem Memory.read_storeBytes (bytes : List Byte) (m : Memory) (addr other : Nat) :
    Memory.read (Memory.storeBytes m addr bytes) other =
      if addr ≤ other ∧ other < addr + bytes.length ∧ other < Config.memSize then
        bytes.getD (other - addr) 0x00#8
      else Memory.read m other := by
  induction bytes generalizing m addr with
  | nil =>
    rw [if_neg (by simp; omega)]
    rfl
  | cons v rest ih =>
    simp only [Memory.storeBytes, List.length_cons]
    rw [ih]
    have hsize : Config.memSize = 65536 := rfl
    by_cases h1 : addr + 1 ≤ other ∧ other < addr + 1 + rest.length ∧ other < Config.memSize
    · rw [if_pos h1, if_pos ⟨by omega, by omega, h1.2.2⟩]
      have : other - addr = (other - (addr + 1)) + 1 := by omega
      rw [this, List.getD_cons_succ]
    · rw [if_neg h1]
      by_cases h2 : other = addr
      · subst h2
        by_cases hm : other < Config.memSize
        · rw [if_pos hm, Memory.read_write_self, if_pos ⟨by omega, by omega, hm⟩, Nat.sub_self,
            List.getD_cons_zero]
        · rw [if_neg hm, if_neg (fun e => hm e.2.2)]
      · rw [if_neg (fun e : addr ≤ other ∧ other < addr + (rest.length + 1) ∧ other < Config.memSize =>
          h1 ⟨by omega, by omega, e.2.2⟩)]
        split
        · exact Memory.read_write_other _ _ h2
        · rfl

end Sys2Proof.Machine
end

