-- ==== Sys2Proof/Laws/State.lean ====
section
/-! SUPPORT. One lemma per field per update of the state, each true by `rfl`, so that no proof unfolds a
record update; and the register accessors. -/

namespace Sys2Proof.Machine

@[simp] theorem reg_a (s : State) : s.reg .a = s.a := rfl
@[simp] theorem reg_b (s : State) : s.reg .b = s.b := rfl
@[simp] theorem reg_c (s : State) : s.reg .c = s.c := rfl

@[simp] theorem setReg_a_a (s : State) (v : Byte) : (s.setReg .a v).a = v := rfl
@[simp] theorem setReg_a_b (s : State) (v : Byte) : (s.setReg .a v).b = s.b := rfl
@[simp] theorem setReg_a_c (s : State) (v : Byte) : (s.setReg .a v).c = s.c := rfl
@[simp] theorem setReg_a_pc (s : State) (v : Byte) : (s.setReg .a v).pc = s.pc := rfl
@[simp] theorem setReg_a_sign (s : State) (v : Byte) : (s.setReg .a v).sign = s.sign := rfl
@[simp] theorem setReg_a_zero (s : State) (v : Byte) : (s.setReg .a v).zero = s.zero := rfl
@[simp] theorem setReg_a_mem (s : State) (v : Byte) : (s.setReg .a v).mem = s.mem := rfl
@[simp] theorem setReg_a_run (s : State) (v : Byte) : (s.setReg .a v).run = s.run := rfl
@[simp] theorem setReg_a_fault (s : State) (v : Byte) : (s.setReg .a v).fault = s.fault := rfl
@[simp] theorem setReg_a_input (s : State) (v : Byte) : (s.setReg .a v).input = s.input := rfl
@[simp] theorem setReg_a_output (s : State) (v : Byte) : (s.setReg .a v).output = s.output := rfl

@[simp] theorem setReg_b_a (s : State) (v : Byte) : (s.setReg .b v).a = s.a := rfl
@[simp] theorem setReg_b_b (s : State) (v : Byte) : (s.setReg .b v).b = v := rfl
@[simp] theorem setReg_b_c (s : State) (v : Byte) : (s.setReg .b v).c = s.c := rfl
@[simp] theorem setReg_b_pc (s : State) (v : Byte) : (s.setReg .b v).pc = s.pc := rfl
@[simp] theorem setReg_b_sign (s : State) (v : Byte) : (s.setReg .b v).sign = s.sign := rfl
@[simp] theorem setReg_b_zero (s : State) (v : Byte) : (s.setReg .b v).zero = s.zero := rfl
@[simp] theorem setReg_b_mem (s : State) (v : Byte) : (s.setReg .b v).mem = s.mem := rfl
@[simp] theorem setReg_b_run (s : State) (v : Byte) : (s.setReg .b v).run = s.run := rfl
@[simp] theorem setReg_b_fault (s : State) (v : Byte) : (s.setReg .b v).fault = s.fault := rfl
@[simp] theorem setReg_b_input (s : State) (v : Byte) : (s.setReg .b v).input = s.input := rfl
@[simp] theorem setReg_b_output (s : State) (v : Byte) : (s.setReg .b v).output = s.output := rfl

@[simp] theorem setReg_c_a (s : State) (v : Byte) : (s.setReg .c v).a = s.a := rfl
@[simp] theorem setReg_c_b (s : State) (v : Byte) : (s.setReg .c v).b = s.b := rfl
@[simp] theorem setReg_c_c (s : State) (v : Byte) : (s.setReg .c v).c = v := rfl
@[simp] theorem setReg_c_pc (s : State) (v : Byte) : (s.setReg .c v).pc = s.pc := rfl
@[simp] theorem setReg_c_sign (s : State) (v : Byte) : (s.setReg .c v).sign = s.sign := rfl
@[simp] theorem setReg_c_zero (s : State) (v : Byte) : (s.setReg .c v).zero = s.zero := rfl
@[simp] theorem setReg_c_mem (s : State) (v : Byte) : (s.setReg .c v).mem = s.mem := rfl
@[simp] theorem setReg_c_run (s : State) (v : Byte) : (s.setReg .c v).run = s.run := rfl
@[simp] theorem setReg_c_fault (s : State) (v : Byte) : (s.setReg .c v).fault = s.fault := rfl
@[simp] theorem setReg_c_input (s : State) (v : Byte) : (s.setReg .c v).input = s.input := rfl
@[simp] theorem setReg_c_output (s : State) (v : Byte) : (s.setReg .c v).output = s.output := rfl

@[simp] theorem setReg_pc (s : State) (r : Reg) (v : Byte) : (s.setReg r v).pc = s.pc := by
  cases r <;> rfl
@[simp] theorem setReg_sign (s : State) (r : Reg) (v : Byte) : (s.setReg r v).sign = s.sign := by
  cases r <;> rfl
@[simp] theorem setReg_zero (s : State) (r : Reg) (v : Byte) : (s.setReg r v).zero = s.zero := by
  cases r <;> rfl
@[simp] theorem setReg_mem (s : State) (r : Reg) (v : Byte) : (s.setReg r v).mem = s.mem := by
  cases r <;> rfl
@[simp] theorem setReg_run (s : State) (r : Reg) (v : Byte) : (s.setReg r v).run = s.run := by
  cases r <;> rfl
@[simp] theorem setReg_fault (s : State) (r : Reg) (v : Byte) : (s.setReg r v).fault = s.fault := by
  cases r <;> rfl
@[simp] theorem setReg_input (s : State) (r : Reg) (v : Byte) : (s.setReg r v).input = s.input := by
  cases r <;> rfl
@[simp] theorem setReg_output (s : State) (r : Reg) (v : Byte) : (s.setReg r v).output = s.output := by
  cases r <;> rfl

@[simp] theorem setFlags_a (s : State) (sg z : Bool) : (s.setFlags sg z).a = s.a := rfl
@[simp] theorem setFlags_b (s : State) (sg z : Bool) : (s.setFlags sg z).b = s.b := rfl
@[simp] theorem setFlags_c (s : State) (sg z : Bool) : (s.setFlags sg z).c = s.c := rfl
@[simp] theorem setFlags_pc (s : State) (sg z : Bool) : (s.setFlags sg z).pc = s.pc := rfl
@[simp] theorem setFlags_sign (s : State) (sg z : Bool) : (s.setFlags sg z).sign = sg := rfl
@[simp] theorem setFlags_zero (s : State) (sg z : Bool) : (s.setFlags sg z).zero = z := rfl
@[simp] theorem setFlags_mem (s : State) (sg z : Bool) : (s.setFlags sg z).mem = s.mem := rfl
@[simp] theorem setFlags_run (s : State) (sg z : Bool) : (s.setFlags sg z).run = s.run := rfl
@[simp] theorem setFlags_fault (s : State) (sg z : Bool) : (s.setFlags sg z).fault = s.fault := rfl
@[simp] theorem setFlags_input (s : State) (sg z : Bool) : (s.setFlags sg z).input = s.input := rfl
@[simp] theorem setFlags_output (s : State) (sg z : Bool) : (s.setFlags sg z).output = s.output := rfl

@[simp] theorem setPc_a (s : State) (v : Word) : (s.setPc v).a = s.a := rfl
@[simp] theorem setPc_b (s : State) (v : Word) : (s.setPc v).b = s.b := rfl
@[simp] theorem setPc_c (s : State) (v : Word) : (s.setPc v).c = s.c := rfl
@[simp] theorem setPc_pc (s : State) (v : Word) : (s.setPc v).pc = v := rfl
@[simp] theorem setPc_sign (s : State) (v : Word) : (s.setPc v).sign = s.sign := rfl
@[simp] theorem setPc_zero (s : State) (v : Word) : (s.setPc v).zero = s.zero := rfl
@[simp] theorem setPc_mem (s : State) (v : Word) : (s.setPc v).mem = s.mem := rfl
@[simp] theorem setPc_run (s : State) (v : Word) : (s.setPc v).run = s.run := rfl
@[simp] theorem setPc_fault (s : State) (v : Word) : (s.setPc v).fault = s.fault := rfl
@[simp] theorem setPc_input (s : State) (v : Word) : (s.setPc v).input = s.input := rfl
@[simp] theorem setPc_output (s : State) (v : Word) : (s.setPc v).output = s.output := rfl

@[simp] theorem setMem_a (s : State) (m : Memory) : (s.setMem m).a = s.a := rfl
@[simp] theorem setMem_b (s : State) (m : Memory) : (s.setMem m).b = s.b := rfl
@[simp] theorem setMem_c (s : State) (m : Memory) : (s.setMem m).c = s.c := rfl
@[simp] theorem setMem_pc (s : State) (m : Memory) : (s.setMem m).pc = s.pc := rfl
@[simp] theorem setMem_sign (s : State) (m : Memory) : (s.setMem m).sign = s.sign := rfl
@[simp] theorem setMem_zero (s : State) (m : Memory) : (s.setMem m).zero = s.zero := rfl
@[simp] theorem setMem_mem (s : State) (m : Memory) : (s.setMem m).mem = m := rfl
@[simp] theorem setMem_run (s : State) (m : Memory) : (s.setMem m).run = s.run := rfl
@[simp] theorem setMem_fault (s : State) (m : Memory) : (s.setMem m).fault = s.fault := rfl
@[simp] theorem setMem_input (s : State) (m : Memory) : (s.setMem m).input = s.input := rfl
@[simp] theorem setMem_output (s : State) (m : Memory) : (s.setMem m).output = s.output := rfl

@[simp] theorem setRun_a (s : State) (r : RunState) : (s.setRun r).a = s.a := rfl
@[simp] theorem setRun_b (s : State) (r : RunState) : (s.setRun r).b = s.b := rfl
@[simp] theorem setRun_c (s : State) (r : RunState) : (s.setRun r).c = s.c := rfl
@[simp] theorem setRun_pc (s : State) (r : RunState) : (s.setRun r).pc = s.pc := rfl
@[simp] theorem setRun_sign (s : State) (r : RunState) : (s.setRun r).sign = s.sign := rfl
@[simp] theorem setRun_zero (s : State) (r : RunState) : (s.setRun r).zero = s.zero := rfl
@[simp] theorem setRun_mem (s : State) (r : RunState) : (s.setRun r).mem = s.mem := rfl
@[simp] theorem setRun_run (s : State) (r : RunState) : (s.setRun r).run = r := rfl
@[simp] theorem setRun_fault (s : State) (r : RunState) : (s.setRun r).fault = s.fault := rfl
@[simp] theorem setRun_input (s : State) (r : RunState) : (s.setRun r).input = s.input := rfl
@[simp] theorem setRun_output (s : State) (r : RunState) : (s.setRun r).output = s.output := rfl

@[simp] theorem setFault_a (s : State) (f : Option Fault) : (s.setFault f).a = s.a := rfl
@[simp] theorem setFault_b (s : State) (f : Option Fault) : (s.setFault f).b = s.b := rfl
@[simp] theorem setFault_c (s : State) (f : Option Fault) : (s.setFault f).c = s.c := rfl
@[simp] theorem setFault_pc (s : State) (f : Option Fault) : (s.setFault f).pc = s.pc := rfl
@[simp] theorem setFault_sign (s : State) (f : Option Fault) : (s.setFault f).sign = s.sign := rfl
@[simp] theorem setFault_zero (s : State) (f : Option Fault) : (s.setFault f).zero = s.zero := rfl
@[simp] theorem setFault_mem (s : State) (f : Option Fault) : (s.setFault f).mem = s.mem := rfl
@[simp] theorem setFault_run (s : State) (f : Option Fault) : (s.setFault f).run = s.run := rfl
@[simp] theorem setFault_fault (s : State) (f : Option Fault) : (s.setFault f).fault = f := rfl
@[simp] theorem setFault_input (s : State) (f : Option Fault) : (s.setFault f).input = s.input := rfl
@[simp] theorem setFault_output (s : State) (f : Option Fault) : (s.setFault f).output = s.output := rfl

@[simp] theorem setInput_a (s : State) (l : List Byte) : (s.setInput l).a = s.a := rfl
@[simp] theorem setInput_b (s : State) (l : List Byte) : (s.setInput l).b = s.b := rfl
@[simp] theorem setInput_c (s : State) (l : List Byte) : (s.setInput l).c = s.c := rfl
@[simp] theorem setInput_pc (s : State) (l : List Byte) : (s.setInput l).pc = s.pc := rfl
@[simp] theorem setInput_sign (s : State) (l : List Byte) : (s.setInput l).sign = s.sign := rfl
@[simp] theorem setInput_zero (s : State) (l : List Byte) : (s.setInput l).zero = s.zero := rfl
@[simp] theorem setInput_mem (s : State) (l : List Byte) : (s.setInput l).mem = s.mem := rfl
@[simp] theorem setInput_run (s : State) (l : List Byte) : (s.setInput l).run = s.run := rfl
@[simp] theorem setInput_fault (s : State) (l : List Byte) : (s.setInput l).fault = s.fault := rfl
@[simp] theorem setInput_input (s : State) (l : List Byte) : (s.setInput l).input = l := rfl
@[simp] theorem setInput_output (s : State) (l : List Byte) : (s.setInput l).output = s.output := rfl

@[simp] theorem setOutput_a (s : State) (l : List PortEvent) : (s.setOutput l).a = s.a := rfl
@[simp] theorem setOutput_b (s : State) (l : List PortEvent) : (s.setOutput l).b = s.b := rfl
@[simp] theorem setOutput_c (s : State) (l : List PortEvent) : (s.setOutput l).c = s.c := rfl
@[simp] theorem setOutput_pc (s : State) (l : List PortEvent) : (s.setOutput l).pc = s.pc := rfl
@[simp] theorem setOutput_sign (s : State) (l : List PortEvent) : (s.setOutput l).sign = s.sign := rfl
@[simp] theorem setOutput_zero (s : State) (l : List PortEvent) : (s.setOutput l).zero = s.zero := rfl
@[simp] theorem setOutput_mem (s : State) (l : List PortEvent) : (s.setOutput l).mem = s.mem := rfl
@[simp] theorem setOutput_run (s : State) (l : List PortEvent) : (s.setOutput l).run = s.run := rfl
@[simp] theorem setOutput_fault (s : State) (l : List PortEvent) : (s.setOutput l).fault = s.fault := rfl
@[simp] theorem setOutput_input (s : State) (l : List PortEvent) : (s.setOutput l).input = s.input := rfl
@[simp] theorem setOutput_output (s : State) (l : List PortEvent) : (s.setOutput l).output = l := rfl

/-- A register reads as it was written, and no other register changes. -/
theorem reg_setReg (s : State) (r q : Reg) (v : Byte) :
    (s.setReg r v).reg q = if q = r then v else s.reg q := by
  cases r <;> cases q <;> rfl

/-- Two states are equal when all their fields are. -/
theorem State.ext_fields {s t : State} (ha : s.a = t.a) (hb : s.b = t.b) (hc : s.c = t.c)
    (hpc : s.pc = t.pc) (hs : s.sign = t.sign) (hz : s.zero = t.zero) (hm : s.mem = t.mem)
    (hr : s.run = t.run) (hf : s.fault = t.fault) (hi : s.input = t.input)
    (ho : s.output = t.output) : s = t := by
  cases s; cases t; simp_all

end Sys2Proof.Machine
end

