-- ==== Sys2Proof/Laws/Ops.lean ====
section
/-! SUPPORT. For each shared operation, once, all that it does; provers cite these instead of unfolding. -/

namespace Sys2Proof.Machine

/-! ### Bytes and words -/

/-- Bit by bit, a word is its low byte and then its high byte (20_memory.md R42). -/
theorem wordOf_getLsbD (hi lo : Byte) (i : Nat) :
    (wordOf hi lo).getLsbD i = if i < 8 then lo.getLsbD i else hi.getLsbD (i - 8) :=
  BitVec.getLsbD_append

@[simp] theorem loByte_wordOf (hi lo : Byte) : loByte (wordOf hi lo) = lo := by
  apply BitVec.eq_of_getLsbD_eq
  intro i hi'
  rw [loByte, BitVec.getLsbD_extractLsb', wordOf_getLsbD, Nat.zero_add, if_pos hi']
  simp [hi']

@[simp] theorem hiByte_wordOf (hi lo : Byte) : hiByte (wordOf hi lo) = hi := by
  apply BitVec.eq_of_getLsbD_eq
  intro i hi'
  rw [hiByte, BitVec.getLsbD_extractLsb', wordOf_getLsbD, if_neg (by omega), Nat.add_sub_cancel_left]
  simp [hi']

@[simp] theorem wordOf_hiByte_loByte (v : Word) : wordOf (hiByte v) (loByte v) = v := by
  apply BitVec.eq_of_getLsbD_eq
  intro i hi'
  rw [wordOf_getLsbD, hiByte, loByte, BitVec.getLsbD_extractLsb', BitVec.getLsbD_extractLsb']
  split
  · rename_i h
    simp [h]
  · rename_i h
    have h8 : i - 8 < 8 := by omega
    have hi8 : 8 + (i - 8) = i := by omega
    rw [hi8]
    simp [h8]

/-! ### Program counter -/

@[simp] theorem advance_eq (s : State) (count : Nat) :
    s.advance count = s.setPc (pcPlus s.pc count) := rfl

/-- The advance is modulo 65536 (R15). -/
theorem pcPlus_toNat (pc : Word) (count : Nat) :
    (pcPlus pc count).toNat = (pc.toNat + count) % 65536 := by
  simp [pcPlus, BitVec.toNat_add, BitVec.toNat_ofNat]

/-! ### Flags and the accumulator -/

@[simp] theorem latchSZ_eq (s : State) : latchSZ s = s.setFlags (signOf s.a) (zeroOf s.a) := rfl

@[simp] theorem writeAcc_eq (s : State) (v : Byte) :
    writeAcc s v = (s.setReg .a v).setFlags (signOf v) (zeroOf v) := rfl

/-- `Sign` is bit 7, that is the unsigned value is at least 128 (R6, R17). -/
theorem signOf_iff (v : Byte) : signOf v = true ↔ 128 ≤ v.toNat := by
  have h := v.isLt
  rw [signOf, BitVec.getLsbD, Nat.testBit_eq_decide_div_mod_eq, decide_eq_true_iff]
  omega

/-- `Zero` is the value 0x00 (R17). -/
theorem zeroOf_iff (v : Byte) : zeroOf v = true ↔ v = 0x00#8 := by
  simp [zeroOf]

/-! ### The ALU -/

theorem aluAdd_toNat (x y : Byte) : (aluAdd x y).toNat = (x.toNat + y.toNat) % 256 := by
  simp [aluAdd]

theorem aluSub_toNat (x y : Byte) : (aluSub x y).toNat = (x.toNat + (256 - y.toNat)) % 256 := by
  have hx := x.isLt
  have hy := y.isLt
  rw [aluSub, BitVec.toNat_ofInt]
  omega

theorem aluSub_eq (x y : Byte) : aluSub x y = x - y := by
  apply BitVec.eq_of_toNat_eq
  rw [aluSub_toNat, BitVec.toNat_sub, Nat.add_comm]

/-! ### Shapes of meaning: what the next state is -/

@[simp] theorem Operand.read_reg (s : State) (r : Reg) : Operand.read s (.reg r) = s.reg r := rfl
@[simp] theorem Operand.read_imm (s : State) (v : Byte) : Operand.read s (.imm v) = v := rfl
@[simp] theorem Operand.read_direct (s : State) (addr : Word) :
    Operand.read s (.direct addr) = Memory.read s.mem addr.toNat := rfl

@[simp] theorem accBinary_eq (f : Byte → Byte → Byte) (src : Operand) (count : Nat) (s : State) :
    accBinary f src count s = .next ((writeAcc s (f s.a (src.read s))).advance count) := rfl

@[simp] theorem accUnary_eq (f : Byte → Byte) (s : State) :
    accUnary f s = .next ((writeAcc s (f s.a)).advance 1) := rfl

@[simp] theorem accLoad_eq (src : Operand) (count : Nat) (s : State) :
    accLoad src count s = .next ((writeAcc s (src.read s)).advance count) := rfl

@[simp] theorem regUnary_eq (f : Byte → Byte) (r : Reg) (s : State) :
    regUnary f r s = .next ((s.setReg r (f (s.reg r))).advance 1) := rfl

@[simp] theorem regLoad_eq (r : Reg) (src : Operand) (count : Nat) (s : State) :
    regLoad r src count s = .next ((s.setReg r (src.read s)).advance count) := rfl

theorem accBinary_next {f : Byte → Byte → Byte} {src : Operand} {count : Nat} {s t : State}
    (h : accBinary f src count s = .next t) :
    t = ((s.setReg .a (f s.a (src.read s))).setFlags (signOf (f s.a (src.read s)))
      (zeroOf (f s.a (src.read s)))).setPc (pcPlus s.pc count) := by
  cases h; rfl

theorem accUnary_next {f : Byte → Byte} {s t : State} (h : accUnary f s = .next t) :
    t = ((s.setReg .a (f s.a)).setFlags (signOf (f s.a)) (zeroOf (f s.a))).setPc (pcPlus s.pc 1) := by
  cases h; rfl

theorem accLoad_next {src : Operand} {count : Nat} {s t : State} (h : accLoad src count s = .next t) :
    t = ((s.setReg .a (src.read s)).setFlags (signOf (src.read s)) (zeroOf (src.read s))).setPc
      (pcPlus s.pc count) := by
  cases h; rfl

theorem regUnary_next {f : Byte → Byte} {r : Reg} {s t : State} (h : regUnary f r s = .next t) :
    t = (s.setReg r (f (s.reg r))).setPc (pcPlus s.pc 1) := by
  cases r <;> cases h <;> rfl

theorem regLoad_next {r : Reg} {src : Operand} {count : Nat} {s t : State}
    (h : regLoad r src count s = .next t) :
    t = (s.setReg r (src.read s)).setPc (pcPlus s.pc count) := by
  cases r <;> cases h <;> rfl

theorem jumpIf_next {cond : Bool} {op16 : Word} {s t : State} (h : jumpIf cond op16 s = .next t) :
    (cond = true ∧ t = s.setPc op16) ∨ (cond = false ∧ t = s.setPc (pcPlus s.pc 3)) := by
  cases cond
  · cases h; exact .inr ⟨rfl, rfl⟩
  · cases h; exact .inl ⟨rfl, rfl⟩

/-! ### Data memory and the link cell -/

@[simp] theorem memRead8_eq (s : State) (addr : Word) :
    memRead8 s addr = Memory.read s.mem addr.toNat := rfl

@[simp] theorem memWrite8_eq (s : State) (addr : Word) (v : Byte) :
    memWrite8 s addr v = s.setMem (Memory.write s.mem addr.toNat v) := rfl

theorem memWrite16_eq (s : State) (addr v : Word) :
    memWrite16 s addr v = s.setMem (Memory.write (Memory.write s.mem addr.toNat (loByte v))
      (addr + 1#16).toNat (hiByte v)) := rfl

@[simp] theorem linkAddr_toNat : linkAddr.toNat = 0xFFFE := rfl
@[simp] theorem linkAddr_succ_toNat : (linkAddr + 1#16).toNat = 0xFFFF := rfl

@[simp] theorem writeLink_eq (s : State) (ret : Word) :
    writeLink s ret =
      s.setMem (Memory.write (Memory.write s.mem 0xFFFE (loByte ret)) 0xFFFF (hiByte ret)) := rfl

@[simp] theorem readLink_eq (s : State) :
    readLink s = wordOf (Memory.read s.mem 0xFFFF) (Memory.read s.mem 0xFFFE) := rfl

/-- Every byte of memory after the link cell is written. -/
theorem read_writeLink (s : State) (ret : Word) (addr : Nat) :
    Memory.read (writeLink s ret).mem addr =
      if addr = 0xFFFF then hiByte ret else if addr = 0xFFFE then loByte ret
      else Memory.read s.mem addr := by
  simp only [writeLink_eq, setMem_mem, Memory.read_write]

theorem word_lt_memSize (addr : Word) : addr.toNat < Config.memSize := addr.isLt

/-- A data write keeps the canonical form. -/
theorem wf_memWrite8 {s : State} (addr : Word) (v : Byte) (h : Memory.wf s.mem) :
    Memory.wf (memWrite8 s addr v).mem :=
  Memory.wf_write v h (word_lt_memSize addr)

/-- Writing the link cell keeps the canonical form. -/
theorem wf_writeLink {s : State} (ret : Word) (h : Memory.wf s.mem) :
    Memory.wf (writeLink s ret).mem :=
  wf_memWrite8 _ _ (wf_memWrite8 _ _ h)

/-- The memory right after reset has the canonical form. -/
theorem wf_reset : Memory.wf State.reset.mem := Memory.wf_nil

/-- Loading a program keeps the canonical form. -/
theorem wf_loadProgram {bytes : List Byte} {s t : State} (h : Memory.wf s.mem)
    (hl : loadProgram bytes s = some t) : Memory.wf t.mem := by
  unfold loadProgram at hl
  split at hl
  · cases hl
    exact Memory.wf_storeBytes bytes 0 h
  · cases hl

/-! ### Fetch -/

theorem fetchByte_low (s : State) {addr : Nat} (h : addr < 65536) :
    fetchByte s addr = Memory.read s.mem addr := if_pos h

theorem fetchByte_padding (s : State) {addr : Nat} (h : 65536 ≤ addr) : fetchByte s addr = 0x00#8 :=
  if_neg (Nat.not_lt.2 h)

/-! ### Ports and the exception -/

@[simp] theorem portIn_nil {s : State} (port : Byte) (h : s.input = []) : portIn s port = none := by
  simp [portIn, h]

theorem portIn_cons {s : State} (port : Byte) {v : Byte} {rest : List Byte} (h : s.input = v :: rest) :
    portIn s port = some (⟨v, inStatus port⟩, s.setInput rest) := by
  simp [portIn, h]

@[simp] theorem portOut_eq (s : State) (port value : Byte) :
    portOut s port value = s.setOutput (s.output ++ [⟨port, value⟩]) := rfl

@[simp] theorem halt_eq (s : State) : halt s = s.setRun .halted := rfl

@[simp] theorem raiseDecodeError_eq (s : State) (opcode : Byte) :
    raiseDecodeError s opcode = s.setFault (some (.decodeError opcode s.pc)) := rfl

/-! ### The step -/

/-- All that a step can do when it answers a next state: it was enabled, and it either executed what it
decoded or took the decode error. -/
theorem stepWith_next {map : OpcodeMap} {s t : State} (h : stepWith map s = .next t) :
    s.fault = none ∧ s.run = .running ∧
      ((∃ i, fetchInstr map s = .ok i ∧ exec i s = .next t) ∨
        (∃ opcode, fetchInstr map s = .error (.unassignedOpcode opcode) ∧
          t = raiseDecodeError s opcode)) := by
  unfold stepWith at h
  split at h
  · cases h
  · cases h
  · rename_i hf hr
    refine ⟨hf, hr, ?_⟩
    unfold runCycle at h
    match he : fetchInstr map s with
    | .ok i => rw [he] at h; exact .inl ⟨i, rfl, h⟩
    | .error (.unassignedOpcode opcode) =>
      rw [he] at h
      cases h
      exact .inr ⟨opcode, rfl, rfl⟩

end Sys2Proof.Machine
end

