-- ==== Sys2Proof/Laws/PerInstr.lean ====
section
/-! SUPPORT. The family `EncodedSize`, one lemma per instruction: under any opcode map the encoding has
the size of the instruction's shape, begins with the instruction's opcode, and its operand bytes read
back as the instruction's operands, whatever bytes follow (30_encoding.md R60, R61, R62, R65). -/

namespace Sys2Proof.Laws.EncodedSize

open Sys2Proof.Machine

def Statement (i : Instr) : Prop :=
  ∀ (map : OpcodeMap) (rest : List Byte),
    (encodeWith map i).length = i.mnemonic.shape.size ∧
    (Window.ofBytes (encodeWith map i ++ rest)).b0 = map i.mnemonic ∧
    i.mnemonic.withOperands (Window.ofBytes (encodeWith map i ++ rest)) = i

/-- Format N: no operand byte. -/
theorem of_n {i : Instr} (ho : i.operandBytes = []) (hs : i.mnemonic.shape = .n)
    (hw : ∀ w, i.mnemonic.withOperands w = i) : Statement i := by
  intro map rest
  refine ⟨?_, rfl, hw _⟩
  rw [encodeWith, ho, hs]
  rfl

/-- Format I8: byte 1 is the operand. -/
theorem of_i8 {i : Instr} {op8 : Byte} (ho : i.operandBytes = [op8]) (hs : i.mnemonic.shape = .i8)
    (hw : ∀ x y, i.mnemonic.withOperands ⟨x, op8, y⟩ = i) : Statement i := by
  intro map rest
  rw [encodeWith, ho, hs]
  exact ⟨rfl, rfl, hw _ _⟩

/-- Format A16: bytes 1 and 2 are the operand, low byte first. -/
theorem of_a16 {i : Instr} {op16 : Word} (ho : i.operandBytes = [loByte op16, hiByte op16])
    (hs : i.mnemonic.shape = .a16)
    (hw : ∀ w : Window, w.op16 = op16 → i.mnemonic.withOperands w = i) : Statement i := by
  intro map rest
  rw [encodeWith, ho, hs]
  exact ⟨rfl, rfl, hw _ (wordOf_hiByte_loByte op16)⟩

theorem nop : Statement (.nop) :=
  of_n rfl rfl (fun _ => rfl)
theorem inrB : Statement (.inrB) :=
  of_n rfl rfl (fun _ => rfl)
theorem dcrB : Statement (.dcrB) :=
  of_n rfl rfl (fun _ => rfl)
theorem mviB (op8 : Byte) : Statement (.mviB op8) :=
  of_i8 rfl rfl (fun _ _ => rfl)
theorem inrC : Statement (.inrC) :=
  of_n rfl rfl (fun _ => rfl)
theorem dcrC : Statement (.dcrC) :=
  of_n rfl rfl (fun _ => rfl)
theorem mviC (op8 : Byte) : Statement (.mviC op8) :=
  of_i8 rfl rfl (fun _ _ => rfl)
theorem ral : Statement (.ral) :=
  of_n rfl rfl (fun _ => rfl)
theorem rar : Statement (.rar) :=
  of_n rfl rfl (fun _ => rfl)
theorem cma : Statement (.cma) :=
  of_n rfl rfl (fun _ => rfl)
theorem sta (op16 : Word) : Statement (.sta op16) :=
  of_a16 rfl rfl (fun _ h => congrArg Instr.sta h)
theorem lda (op16 : Word) : Statement (.lda op16) :=
  of_a16 rfl rfl (fun _ h => congrArg Instr.lda h)
theorem inrA : Statement (.inrA) :=
  of_n rfl rfl (fun _ => rfl)
theorem dcrA : Statement (.dcrA) :=
  of_n rfl rfl (fun _ => rfl)
theorem mviA (op8 : Byte) : Statement (.mviA op8) :=
  of_i8 rfl rfl (fun _ _ => rfl)
theorem movBC : Statement (.movBC) :=
  of_n rfl rfl (fun _ => rfl)
theorem movBA : Statement (.movBA) :=
  of_n rfl rfl (fun _ => rfl)
theorem movCB : Statement (.movCB) :=
  of_n rfl rfl (fun _ => rfl)
theorem movCA : Statement (.movCA) :=
  of_n rfl rfl (fun _ => rfl)
theorem hlt : Statement (.hlt) :=
  of_n rfl rfl (fun _ => rfl)
theorem movAB : Statement (.movAB) :=
  of_n rfl rfl (fun _ => rfl)
theorem movAC : Statement (.movAC) :=
  of_n rfl rfl (fun _ => rfl)
theorem addB : Statement (.addB) :=
  of_n rfl rfl (fun _ => rfl)
theorem addC : Statement (.addC) :=
  of_n rfl rfl (fun _ => rfl)
theorem subB : Statement (.subB) :=
  of_n rfl rfl (fun _ => rfl)
theorem subC : Statement (.subC) :=
  of_n rfl rfl (fun _ => rfl)
theorem anaB : Statement (.anaB) :=
  of_n rfl rfl (fun _ => rfl)
theorem anaC : Statement (.anaC) :=
  of_n rfl rfl (fun _ => rfl)
theorem xraB : Statement (.xraB) :=
  of_n rfl rfl (fun _ => rfl)
theorem xraC : Statement (.xraC) :=
  of_n rfl rfl (fun _ => rfl)
theorem oraB : Statement (.oraB) :=
  of_n rfl rfl (fun _ => rfl)
theorem oraC : Statement (.oraC) :=
  of_n rfl rfl (fun _ => rfl)
theorem jnz (op16 : Word) : Statement (.jnz op16) :=
  of_a16 rfl rfl (fun _ h => congrArg Instr.jnz h)
theorem jmp (op16 : Word) : Statement (.jmp op16) :=
  of_a16 rfl rfl (fun _ h => congrArg Instr.jmp h)
theorem ret : Statement (.ret) :=
  of_n rfl rfl (fun _ => rfl)
theorem jz (op16 : Word) : Statement (.jz op16) :=
  of_a16 rfl rfl (fun _ h => congrArg Instr.jz h)
theorem call (op16 : Word) : Statement (.call op16) :=
  of_a16 rfl rfl (fun _ h => congrArg Instr.call h)
theorem outPort (op8 : Byte) : Statement (.outPort op8) :=
  of_i8 rfl rfl (fun _ _ => rfl)
theorem inPort (op8 : Byte) : Statement (.inPort op8) :=
  of_i8 rfl rfl (fun _ _ => rfl)
theorem ani (op8 : Byte) : Statement (.ani op8) :=
  of_i8 rfl rfl (fun _ _ => rfl)
theorem xri (op8 : Byte) : Statement (.xri op8) :=
  of_i8 rfl rfl (fun _ _ => rfl)
theorem ori (op8 : Byte) : Statement (.ori op8) :=
  of_i8 rfl rfl (fun _ _ => rfl)
theorem jm (op16 : Word) : Statement (.jm op16) :=
  of_a16 rfl rfl (fun _ h => congrArg Instr.jm h)

end Sys2Proof.Laws.EncodedSize
end

