-- ==== Sys2Proof/Tests/Slice0.lean ====
section
/-! SUPPORT. The model's own tests. Expected values are the spec's (95_test_vectors.md, derived there by
hand from the rules) or are written out from an encoding table; then, for each statement with hypotheses,
a state that meets them. -/

namespace Sys2Proof.Tests

open Sys2Proof Sys2Proof.Machine

/-- The next state of an outcome, if it is one. -/
def after : Result → Option State
  | .next t => some t
  | _ => none

/-- What the decoder reads from bytes. -/
def word (bytes : List Byte) : Option Instr :=
  (decode (Window.ofBytes bytes)).toOption

/-- `exec` answers the state that `after` sees. -/
theorem exec_of_after {i : Instr} {s t : State} (h : after (exec i s) = some t) : exec i s = .next t := by
  revert h
  cases exec i s <;> simp [after]

/-- `step` answers the state that `after` sees. -/
theorem step_of_after {s t : State} (h : after (step s) = some t) : step s = .next t := by
  revert h
  cases step s <;> simp [after]

/-! ### WellFormed: an ill-formed term for each check -/

/-- A map that gives `ADD_C` the byte of `ADD_B`. -/
def clashingMap : OpcodeMap := fun m => if m = .addC then 0x80#8 else opcodeMap m

/-- A map that moves the attested `HLT` to an unassigned byte. -/
def unattestedMap : OpcodeMap := fun m => if m = .hlt then 0xFF#8 else opcodeMap m

theorem test_clashing_map_refused :
    ¬ OpcodeMap.injective clashingMap ∧ OpcodeMap.attested clashingMap := by decide

theorem test_unattested_map_refused :
    ¬ OpcodeMap.attested unattestedMap ∧ OpcodeMap.injective unattestedMap := by decide

theorem test_long_image_refused : ¬ imageWf (List.replicate 65537 0x00#8) := by
  rw [imageWf, List.length_replicate]
  decide

theorem test_full_image_accepted : imageWf (List.replicate 65536 0x00#8) := by
  rw [imageWf, List.length_replicate]
  decide

theorem test_memory_not_rising_refused : ¬ Memory.wf [(2, 0x01#8), (1, 0x01#8)] := by decide

theorem test_memory_zero_entry_refused : ¬ Memory.wf [(1, 0x00#8)] := by decide

theorem test_memory_above_top_refused : ¬ Memory.wf [(65536, 0x01#8)] := by decide

/-! ### Decode: every row of the opcode table -/

/-- The opcode bits of every row of the family alu (30_encoding.md R63, column "binary"). -/
theorem test_decode_alu :
    [word [0b10000000#8],
     word [0b10000001#8],
     word [0b10010000#8],
     word [0b10010001#8],
     word [0b10100000#8],
     word [0b10100001#8],
     word [0b11100110#8, 0xA5#8],
     word [0b10110000#8],
     word [0b10110001#8],
     word [0b11110110#8, 0xA5#8],
     word [0b10101000#8],
     word [0b10101001#8],
     word [0b11101110#8, 0xA5#8],
     word [0b00101111#8],
     word [0b00111100#8],
     word [0b00111101#8],
     word [0b00000100#8],
     word [0b00001100#8],
     word [0b00000101#8],
     word [0b00001101#8]] =
    [some .addB,
     some .addC,
     some .subB,
     some .subC,
     some .anaB,
     some .anaC,
     some (.ani 0xA5#8),
     some .oraB,
     some .oraC,
     some (.ori 0xA5#8),
     some .xraB,
     some .xraC,
     some (.xri 0xA5#8),
     some .cma,
     some .inrA,
     some .dcrA,
     some .inrB,
     some .inrC,
     some .dcrB,
     some .dcrC] := by decide

/-- The opcode bits of every row of the family move (30_encoding.md R63, column "binary"). -/
theorem test_decode_move :
    [word [0b01111000#8],
     word [0b01111001#8],
     word [0b01000111#8],
     word [0b01000001#8],
     word [0b01001111#8],
     word [0b01001000#8],
     word [0b00111110#8, 0xA5#8],
     word [0b00000110#8, 0xA5#8],
     word [0b00001110#8, 0xA5#8],
     word [0b00111010#8, 0x34#8, 0x12#8],
     word [0b00110010#8, 0x34#8, 0x12#8]] =
    [some .movAB,
     some .movAC,
     some .movBA,
     some .movBC,
     some .movCA,
     some .movCB,
     some (.mviA 0xA5#8),
     some (.mviB 0xA5#8),
     some (.mviC 0xA5#8),
     some (.lda 0x1234#16),
     some (.sta 0x1234#16)] := by decide

/-- The opcode bits of every row of the family control (30_encoding.md R63, column "binary"). -/
theorem test_decode_control :
    [word [0b11000011#8, 0x34#8, 0x12#8],
     word [0b11001010#8, 0x34#8, 0x12#8],
     word [0b11000010#8, 0x34#8, 0x12#8],
     word [0b11111010#8, 0x34#8, 0x12#8],
     word [0b11001101#8, 0x34#8, 0x12#8],
     word [0b11001001#8]] =
    [some (.jmp 0x1234#16),
     some (.jz 0x1234#16),
     some (.jnz 0x1234#16),
     some (.jm 0x1234#16),
     some (.call 0x1234#16),
     some .ret] := by decide

/-- The opcode bits of every row of the family io and misc (30_encoding.md R63, column "binary"). -/
theorem test_decode_io_misc :
    [word [0b11011011#8, 0xA5#8],
     word [0b11010011#8, 0xA5#8],
     word [0b00000000#8],
     word [0b00010111#8],
     word [0b00011111#8],
     word [0b01110110#8]] =
    [some (.inPort 0xA5#8),
     some (.outPort 0xA5#8),
     some .nop,
     some .ral,
     some .rar,
     some .hlt] := by decide

/-- The first and last bytes of the illegal ranges next to assigned ones (R67), and 0xFF. -/
theorem test_decode_refuses_unassigned :
    [word [0x01#8], word [0x03#8], word [0x75#8], word [0x77#8], word [0xFB#8], word [0xFF#8]] =
      [none, none, none, none, none, none] := by decide

/-- Operand bytes are low byte first in the encoding too (R61). -/
theorem test_encode_call : encode (.call 0x1234#16) = [0xCD#8, 0x34#8, 0x12#8] := by decide

/-- The table's numbering puts the second byte in bits 15..8. -/
theorem test_table_word : decodeTableWord 16 0x3CEE = some (.xri 0x3C#8) := by decide

/-! ### One instruction on a small state -/

/-- 95_test_vectors.md part 2.1. -/
theorem test_addB_wraps :
    (after (exec .addB { State.reset with a := 0xFF#8, b := 0x01#8 })).map (fun t => (t.a, t.sign, t.zero, t.pc)) =
      some (0x00#8, false, true, 0x0001#16) := by decide

/-- 95_test_vectors.md part 2.1. -/
theorem test_addC_ignores_B :
    (after (exec .addC { State.reset with a := 0x12#8, b := 0xFF#8, c := 0x34#8 })).map (fun t => (t.a, t.sign, t.zero, t.pc)) =
      some (0x46#8, false, false, 0x0001#16) := by decide

/-- 95_test_vectors.md part 2.1. -/
theorem test_subB_wraps :
    (after (exec .subB { State.reset with a := 0x00#8, b := 0x01#8 })).map (fun t => (t.a, t.sign, t.zero, t.pc)) =
      some (0xFF#8, true, false, 0x0001#16) := by decide

/-- 95_test_vectors.md part 2.1. -/
theorem test_subB_sign_change :
    (after (exec .subB { State.reset with a := 0x80#8, b := 0x01#8 })).map (fun t => (t.a, t.sign, t.zero, t.pc)) =
      some (0x7F#8, false, false, 0x0001#16) := by decide

/-- 95_test_vectors.md part 2.1. -/
theorem test_subC :
    (after (exec .subC { State.reset with a := 0x05#8, c := 0x07#8 })).map (fun t => (t.a, t.sign, t.zero, t.pc)) =
      some (0xFE#8, true, false, 0x0001#16) := by decide

/-- 95_test_vectors.md part 2.2. -/
theorem test_anaB :
    (after (exec .anaB { State.reset with a := 0xFF#8, b := 0x80#8 })).map (fun t => (t.a, t.sign, t.zero, t.pc)) =
      some (0x80#8, true, false, 0x0001#16) := by decide

/-- 95_test_vectors.md part 2.2. -/
theorem test_anaC :
    (after (exec .anaC { State.reset with a := 0xCC#8, c := 0xAA#8 })).map (fun t => (t.a, t.sign, t.zero, t.pc)) =
      some (0x88#8, true, false, 0x0001#16) := by decide

/-- 95_test_vectors.md part 2.2. -/
theorem test_ani :
    (after (exec (.ani 0x0F#8) { State.reset with a := 0x5A#8 })).map (fun t => (t.a, t.sign, t.zero, t.pc)) =
      some (0x0A#8, false, false, 0x0002#16) := by decide

/-- 95_test_vectors.md part 2.2. -/
theorem test_oraB :
    (after (exec .oraB { State.reset with a := 0x80#8, b := 0x01#8 })).map (fun t => (t.a, t.sign, t.zero, t.pc)) =
      some (0x81#8, true, false, 0x0001#16) := by decide

/-- 95_test_vectors.md part 2.2. -/
theorem test_oraC :
    (after (exec .oraC { State.reset with a := 0x00#8, c := 0x00#8 })).map (fun t => (t.a, t.sign, t.zero, t.pc)) =
      some (0x00#8, false, true, 0x0001#16) := by decide

/-- 95_test_vectors.md part 2.2. -/
theorem test_ori_refreshes_flags :
    (after (exec (.ori 0x00#8) { State.reset with a := 0x00#8, sign := true, zero := false })).map (fun t => (t.a, t.sign, t.zero, t.pc)) =
      some (0x00#8, false, true, 0x0002#16) := by decide

/-- 95_test_vectors.md part 2.2. -/
theorem test_xraB :
    (after (exec .xraB { State.reset with a := 0x55#8, b := 0x55#8 })).map (fun t => (t.a, t.sign, t.zero, t.pc)) =
      some (0x00#8, false, true, 0x0001#16) := by decide

/-- 95_test_vectors.md part 2.2. -/
theorem test_xraC :
    (after (exec .xraC { State.reset with a := 0x0F#8, c := 0xFF#8 })).map (fun t => (t.a, t.sign, t.zero, t.pc)) =
      some (0xF0#8, true, false, 0x0001#16) := by decide

/-- 95_test_vectors.md part 2.2. -/
theorem test_xri_advances_by_one :
    (after (exec (.xri 0x3C#8) { State.reset with a := 0xF0#8, pc := 0x0002#16 })).map (fun t => (t.a, t.sign, t.zero, t.pc)) =
      some (0xCC#8, true, false, 0x0003#16) := by decide

/-- 95_test_vectors.md part 2.3. -/
theorem test_cma :
    (after (exec .cma { State.reset with a := 0x5A#8 })).map (fun t => (t.a, t.sign, t.zero, t.pc)) =
      some (0xA5#8, true, false, 0x0001#16) := by decide

/-- 95_test_vectors.md part 2.3. -/
theorem test_inrA_wraps :
    (after (exec .inrA { State.reset with a := 0xFF#8 })).map (fun t => (t.a, t.sign, t.zero, t.pc)) =
      some (0x00#8, false, true, 0x0001#16) := by decide

/-- 95_test_vectors.md part 2.3. -/
theorem test_dcrA_wraps :
    (after (exec .dcrA { State.reset with a := 0x00#8 })).map (fun t => (t.a, t.sign, t.zero, t.pc)) =
      some (0xFF#8, true, false, 0x0001#16) := by decide

/-- 95_test_vectors.md part 2.3. -/
theorem test_inrB_keeps_flags :
    (after (exec .inrB { State.reset with b := 0xFF#8, sign := true })).map (fun t => (t.b, t.sign, t.zero, t.pc)) =
      some (0x00#8, true, false, 0x0001#16) := by decide

/-- 95_test_vectors.md part 2.3. -/
theorem test_inrC_keeps_flags :
    (after (exec .inrC { State.reset with c := 0x41#8, zero := true })).map (fun t => (t.c, t.sign, t.zero, t.pc)) =
      some (0x42#8, false, true, 0x0001#16) := by decide

/-- 95_test_vectors.md part 2.3. -/
theorem test_dcrB_keeps_flags :
    (after (exec .dcrB { State.reset with b := 0x01#8 })).map (fun t => (t.b, t.sign, t.zero, t.pc)) =
      some (0x00#8, false, false, 0x0001#16) := by decide

/-- 95_test_vectors.md part 2.3. -/
theorem test_dcrC_keeps_flags :
    (after (exec .dcrC { State.reset with c := 0x00#8, zero := true })).map (fun t => (t.c, t.sign, t.zero, t.pc)) =
      some (0xFF#8, false, true, 0x0001#16) := by decide

/-- 95_test_vectors.md part 2.4. -/
theorem test_movAB :
    (after (exec .movAB { State.reset with a := 0x11#8, b := 0x80#8 })).map (fun t => (t.a, t.b, t.sign, t.zero)) =
      some (0x80#8, 0x80#8, true, false) := by decide

/-- 95_test_vectors.md part 2.4. -/
theorem test_movAC :
    (after (exec .movAC { State.reset with a := 0xFF#8, c := 0x00#8 })).map (fun t => (t.a, t.c, t.sign, t.zero)) =
      some (0x00#8, 0x00#8, false, true) := by decide

/-- 95_test_vectors.md part 2.4. -/
theorem test_movBA :
    (after (exec .movBA { State.reset with a := 0x00#8, b := 0x33#8, sign := true })).map (fun t => (t.a, t.b, t.sign, t.zero)) =
      some (0x00#8, 0x00#8, true, false) := by decide

/-- 95_test_vectors.md part 2.4. -/
theorem test_movBC :
    (after (exec .movBC { State.reset with b := 0x01#8, c := 0x7E#8 })).map (fun t => (t.b, t.c, t.sign, t.zero)) =
      some (0x7E#8, 0x7E#8, false, false) := by decide

/-- 95_test_vectors.md part 2.4. -/
theorem test_movCA :
    (after (exec .movCA { State.reset with a := 0x0F#8 })).map (fun t => (t.a, t.c, t.sign, t.zero)) =
      some (0x0F#8, 0x0F#8, false, false) := by decide

/-- 95_test_vectors.md part 2.4. -/
theorem test_movCB :
    (after (exec .movCB { State.reset with b := 0xAB#8 })).map (fun t => (t.b, t.c, t.sign, t.zero)) =
      some (0xAB#8, 0xAB#8, false, false) := by decide

/-- 95_test_vectors.md part 2.4. -/
theorem test_mviA :
    (after (exec (.mviA 0x80#8) { State.reset with a := 0x55#8 })).map (fun t => (t.a, t.sign, t.zero, t.pc)) =
      some (0x80#8, true, false, 0x0002#16) := by decide

/-- 95_test_vectors.md part 2.4. -/
theorem test_mviB_keeps_flags :
    (after (exec (.mviB 0x02#8) { State.reset with zero := true })).map (fun t => (t.b, t.sign, t.zero, t.pc)) =
      some (0x02#8, false, true, 0x0002#16) := by decide

/-- 95_test_vectors.md part 2.4. -/
theorem test_mviC :
    (after (exec (.mviC 0xFF#8) { State.reset with  })).map (fun t => (t.c, t.sign, t.zero, t.pc)) =
      some (0xFF#8, false, false, 0x0002#16) := by decide

/-- 95_test_vectors.md part 2.5. -/
theorem test_lda :
    (after (exec (.lda 0x0020#16) { State.reset with pc := 0x0005#16, mem := [(0x20, 0x80#8)] })).map (fun t => (t.a, t.sign, t.zero, t.pc)) =
      some (0x80#8, true, false, 0x0008#16) := by decide

/-- 95_test_vectors.md part 2.5. -/
theorem test_lda_high_link_byte :
    (after (exec (.lda 0xFFFF#16) { State.reset with pc := 0x0010#16, mem := [(0xFFFE, 0x34#8), (0xFFFF, 0x12#8)] })).map (fun t => (t.a, t.sign, t.zero, t.pc)) =
      some (0x12#8, false, false, 0x0013#16) := by decide

/-- 95_test_vectors.md part 2.5. -/
theorem test_sta :
    (after (exec (.sta 0x0020#16) { State.reset with a := 0x03#8, pc := 0x0002#16 })).map (fun t => (t.mem, t.a, t.pc)) =
      some ([((0x20 : Nat), 0x03#8)], 0x03#8, 0x0005#16) := by decide

/-- 95_test_vectors.md part 2.5. -/
theorem test_sta_link :
    (after (exec (.sta 0xFFFF#16) { State.reset with a := 0x12#8, mem := [(0xFFFE, 0x34#8)] })).map (fun t => (t.mem, t.pc)) =
      some ([((0xFFFE : Nat), 0x34#8), (0xFFFF, 0x12#8)], 0x0003#16) := by decide

/-- 95_test_vectors.md part 2.6. -/
theorem test_jmp :
    (after (exec (.jmp 0x1234#16) { State.reset with pc := 0x0100#16 })).map (fun t => (t.pc, t.a)) =
      some (0x1234#16, 0x00#8) := by decide

/-- 95_test_vectors.md part 2.6. -/
theorem test_jz_taken :
    (after (exec (.jz 0x0200#16) { State.reset with pc := 0x0040#16, zero := true })).map (fun t => (t.pc, t.a)) =
      some (0x0200#16, 0x00#8) := by decide

/-- 95_test_vectors.md part 2.6. -/
theorem test_jz_not_taken :
    (after (exec (.jz 0x0200#16) { State.reset with pc := 0x0040#16 })).map (fun t => (t.pc, t.a)) =
      some (0x0043#16, 0x00#8) := by decide

/-- 95_test_vectors.md part 2.6. -/
theorem test_jm_taken :
    (after (exec (.jm 0x0200#16) { State.reset with pc := 0x0040#16, sign := true })).map (fun t => (t.pc, t.a)) =
      some (0x0200#16, 0x00#8) := by decide

/-- 95_test_vectors.md part 2.6. -/
theorem test_jm_not_taken :
    (after (exec (.jm 0x0200#16) { State.reset with pc := 0x0040#16 })).map (fun t => (t.pc, t.a)) =
      some (0x0043#16, 0x00#8) := by decide

/-- 95_test_vectors.md part 2.6. -/
theorem test_jnz_taken :
    (after (exec (.jnz 0x0005#16) { State.reset with pc := 0x000E#16 })).map (fun t => (t.pc, t.a)) =
      some (0x0005#16, 0x00#8) := by decide

/-- 95_test_vectors.md part 2.6. -/
theorem test_jnz_not_taken :
    (after (exec (.jnz 0x0005#16) { State.reset with pc := 0x000E#16, zero := true })).map (fun t => (t.pc, t.a)) =
      some (0x0011#16, 0x00#8) := by decide

/-- 95_test_vectors.md part 2.7. -/
theorem test_call :
    (after (exec (.call 0x2000#16) { State.reset with pc := 0x12FE#16, mem := [(0xFFFE, 0x03#8)] })).map (fun t => (t.mem, t.pc)) =
      some ([((0xFFFE : Nat), 0x01#8), (0xFFFF, 0x13#8)], 0x2000#16) := by decide

/-- 95_test_vectors.md part 2.7. -/
theorem test_call_return_address_wraps :
    (after (exec (.call 0x1234#16) { State.reset with pc := 0xFFFD#16, mem := [(0xFFFE, 0x34#8), (0xFFFF, 0x12#8)] })).map (fun t => (t.mem, t.pc)) =
      some (([] : Memory), 0x1234#16) := by decide

/-- 95_test_vectors.md part 2.7. -/
theorem test_ret :
    (after (exec .ret { State.reset with pc := 0x0012#16, mem := [(0xFFFE, 0x34#8), (0xFFFF, 0x12#8)] })).map (fun t => (t.pc, t.mem)) =
      some (0x1234#16, ([(0xFFFE, 0x34#8), (0xFFFF, 0x12#8)] : Memory)) := by decide

/-- 95_test_vectors.md part 2.8. -/
theorem test_in :
    (after (exec (.inPort 0x02#8) { State.reset with input := [0x80#8, 0x41#8] })).map (fun t => (t.a, t.sign, t.input, t.pc)) =
      some (0x80#8, true, [0x41#8], 0x0002#16) := by decide

/-- 95_test_vectors.md part 2.8. -/
theorem test_in_holds :
    (after (exec (.inPort 0x01#8) { State.reset with a := 0x07#8 })).map (fun t => (t.a, t.run, t.pc)) =
      some (0x07#8, RunState.running, 0x0000#16) := by decide

/-- 95_test_vectors.md part 2.8. -/
theorem test_out_port_3 :
    (after (exec (.outPort 0x03#8) { State.reset with a := 0x09#8, pc := 0x0003#16 })).map (fun t => (t.output, t.a, t.pc)) =
      some ([(⟨0x03#8, 0x09#8⟩ : PortEvent)], 0x09#8, 0x0005#16) := by decide

/-- 95_test_vectors.md part 2.8. -/
theorem test_out_other_port :
    (after (exec (.outPort 0x04#8) { State.reset with a := 0x09#8, pc := 0x0003#16 })).map (fun t => (t.output, t.a, t.pc)) =
      some (([] : List PortEvent), 0x09#8, 0x0005#16) := by decide

/-- 95_test_vectors.md part 2.8. -/
theorem test_nop_wraps :
    (after (exec .nop { State.reset with pc := 0xFFFF#16 })).map (fun t => (t.pc, t.a)) =
      some (0x0000#16, 0x00#8) := by decide

/-- 95_test_vectors.md part 2.8. -/
theorem test_ral :
    (after (exec .ral { State.reset with a := 0x80#8 })).map (fun t => (t.a, t.sign, t.zero, t.pc)) =
      some (0x01#8, false, false, 0x0001#16) := by decide

/-- 95_test_vectors.md part 2.8. -/
theorem test_rar :
    (after (exec .rar { State.reset with a := 0x01#8 })).map (fun t => (t.a, t.sign, t.zero, t.pc)) =
      some (0x80#8, true, false, 0x0001#16) := by decide

/-- 95_test_vectors.md part 2.8. -/
theorem test_hlt :
    (after (exec .hlt { State.reset with pc := 0x000F#16 })).map (fun t => (t.run, t.pc)) =
      some (RunState.halted, 0x0010#16) := by decide

/-! ### One step -/

/-- 95_test_vectors.md part 2.9, operands above 0xFFFF are the padding. -/
theorem test_step_jmp_at_top :
    (after (step { State.reset with pc := 0xFFFF#16, mem := [(0, 0x34#8), (1, 0x12#8), (0xFFFF, 0xC3#8)] })).map (fun t => (t.pc, t.a)) =
      some (0x0000#16, 0x00#8) := by decide

/-- 95_test_vectors.md part 2.9. -/
theorem test_step_lda_at_FFFE :
    (after (step { State.reset with pc := 0xFFFE#16, mem := [(0, 0x55#8), (0x10, 0x99#8), (0xFFFE, 0x3A#8), (0xFFFF, 0x10#8)] })).map (fun t => (t.a, t.pc)) =
      some (0x99#8, 0x0001#16) := by decide

/-- 95_test_vectors.md part 2.7, the target is read before the link cell is written. -/
theorem test_step_call_at_FFFD :
    (after (step { State.reset with pc := 0xFFFD#16, mem := [(0xFFFD, 0xCD#8), (0xFFFE, 0x34#8), (0xFFFF, 0x12#8)] })).map (fun t => (t.pc, t.mem)) =
      some (0x1234#16, ([(0xFFFD, 0xCD#8)] : Memory)) := by decide

/-- 95_test_vectors.md part 2.5, a store into its own operand byte. -/
theorem test_step_sta_own_operand :
    (after (step { State.reset with a := 0x77#8, pc := 0x0002#16, mem := [(2, 0x32#8), (3, 0x03#8)] })).map (fun t => (t.mem, t.pc)) =
      some (([(2, 0x32#8), (3, 0x77#8)] : Memory), 0x0005#16) := by decide

/-- 95_test_vectors.md part 2.10. -/
theorem test_step_decode_error :
    (after (step { State.reset with a := 0x01#8, pc := 0x0002#16, mem := [(2, 0xFF#8)] })).map (fun t => (t.fault, t.pc, t.a, t.run)) =
      some (some (Fault.decodeError 0xFF#8 0x0002#16), 0x0002#16, 0x01#8, RunState.running) := by decide

/-- the word of STA 0x0020 placed at the reset PC. -/
theorem test_step_fetched_word :
    (after (step (State.reset.withFetchWord 24 0x002032))).map (fun t => (t.pc, t.a)) =
      some (0x0003#16, 0x00#8) := by decide

/-- 95_test_vectors.md part 2.10: no step when FAULT is set or RUN is Halted. -/
theorem test_stopped_machine_has_no_step :
    after (step { State.reset with run := .halted }) = none ∧
    after (step { State.reset with fault := some (.decodeError 0x01#8 0x0000#16) }) = none := by decide

/-- 95_test_vectors.md part 2.11, from a halted and faulted state. -/
theorem test_host_reset :
    hostReset { State.reset with a := 0x05#8, mem := [(7, 0x01#8)], run := .halted } = State.reset := by decide

/-- R186: the image of `HLT` at start 0, one byte of code; the same with one magic byte wrong. -/
theorem test_parse_image :
    parseImage [0x53#8, 0x41#8, 0x50#8, 0x43#8, 0x01#8, 0x00#8, 0x00#8, 0x00#8, 0x76#8] =
      some ⟨[0x76#8], 0x0000#16⟩ ∧
    parseImage [0x53#8, 0x41#8, 0x50#8, 0x44#8, 0x01#8, 0x00#8, 0x00#8, 0x00#8, 0x76#8] = none ∧
    parseImage [0x53#8, 0x41#8, 0x50#8, 0x43#8, 0x02#8, 0x00#8, 0x00#8, 0x00#8, 0x76#8] = none := by decide

/-! ### Witnesses: for each statement with hypotheses, a concrete case that meets them -/

/-- `STA 0x0003` at 2, with A = 0x77: a store into its own operand byte. -/
def ownStore : State := { State.reset with a := 0x77#8, pc := 0x0002#16, mem := [(2, 0x32#8), (3, 0x03#8)] }

/-- `CALL` at 0xFFFD, whose operand bytes are the link cell. -/
def callInLink : State :=
  { State.reset with pc := 0xFFFD#16, mem := [(0xFFFD, 0xCD#8), (0xFFFE, 0x34#8), (0xFFFF, 0x12#8)] }

/-- The unassigned byte 0xFF at the last address. -/
def badByteAtTop : State := { State.reset with pc := 0xFFFF#16, mem := [(0xFFFF, 0xFF#8)] }

/-- `IN` at the reset PC, no byte supplied. -/
def waiting : State := { State.reset with mem := [(0, 0xDB#8), (1, 0x01#8)] }

/-- `HLT` at the reset PC. -/
def aboutToHalt : State := { State.reset with mem := [(0, 0x76#8)] }

theorem witness_DecodeInvertsEncodeUnderAnyInjectiveMap : OpcodeMap.injective opcodeMap := by decide

theorem witness_EncodeInvertsDecodeUnderAnyMap :
    decodeWith opcodeMap ⟨0xC3#8, 0xFF#8, 0xFF#8⟩ = .ok (.jmp 0xFFFF#16) := by rfl

/-- One window per format, with the operands at the ends of their ranges; and the first clause on bytes that
stand at `PC` and after it. -/
theorem witness_OperandsStandInTheirBytes :
    decodeWith opcodeMap ⟨0x3E#8, 0xFF#8, 0x00#8⟩ = .ok (.mviA 0xFF#8) ∧
    decodeWith opcodeMap ⟨0xCD#8, 0xFF#8, 0xFF#8⟩ = .ok (.call 0xFFFF#16) ∧
    decodeWith opcodeMap ⟨0x76#8, 0xFF#8, 0xFF#8⟩ = .ok .hlt ∧
    fetchWindow { State.reset with pc := 0x0010#16, mem := [(16, 0xCD#8), (17, 0x34#8), (18, 0x12#8)] } =
      ⟨0xCD#8, 0x34#8, 0x12#8⟩ := by
  exact ⟨rfl, rfl, rfl, by decide⟩

theorem witness_StepRunsTheDecodedInstruction :
    aboutToHalt.canStep ∧ decode (fetchWindow aboutToHalt) = .ok .hlt := by
  exact ⟨by decide, rfl⟩

/-- A 3-byte instruction that ends at the last address. -/
theorem witness_StepRunsTheEncodedInstruction :
    callInLink.canStep ∧ ∀ k < (encode (.call 0x1234#16)).length,
      fetchByte callInLink (callInLink.pc.toNat + k) = (encode (.call 0x1234#16)).getD k 0x00#8 := by
  decide

theorem witness_OperandsAreFetchedBeforeAnyWrite :
    (ownStore.canStep ∧ decode (fetchWindow ownStore) = .ok (.sta 0x0003#16)) ∧
    (callInLink.canStep ∧ decode (fetchWindow callInLink) = .ok (.call 0x1234#16)) := by
  exact ⟨⟨by decide, rfl⟩, by decide, rfl⟩

theorem witness_EnabledStepAlwaysAnswersNext : badByteAtTop.canStep := by decide

theorem witness_StoppedMachineHasNoStep :
    State.fault { State.reset with fault := some (.decodeError 0x01#8 0x0000#16) } =
      some (.decodeError 0x01#8 0x0000#16) ∧
    State.fault { State.reset with run := .halted } = none ∧
    State.run { State.reset with run := .halted } = .halted := by decide

/-- Both clauses, at the last address: an unassigned byte, and a step that sets `FAULT`. -/
theorem witness_DecodeErrorLatchesOpcodeAndPc :
    badByteAtTop.canStep ∧ (∀ m ∈ Mnemonic.all, opcodeMap m ≠ fetchByte badByteAtTop badByteAtTop.pc.toNat) ∧
    ∃ t, step badByteAtTop = .next t ∧ t.fault ≠ none := by
  refine ⟨by decide, by decide, _, step_of_after (t := badByteAtTop.setFault
    (some (.decodeError 0xFF#8 0xFFFF#16))) (by decide), by decide⟩

/-- One state per end of a run, and one that goes on. -/
theorem witness_RunEndsByHaltOrByFault :
    (aboutToHalt.canStep ∧ ∃ t, step aboutToHalt = .next t) ∧
    (badByteAtTop.canStep ∧ ∃ t, step badByteAtTop = .next t) ∧
    (State.reset.canStep ∧ ∃ t, step State.reset = .next t) := by
  exact ⟨⟨by decide, _, rfl⟩, ⟨by decide, _, rfl⟩, by decide, _, rfl⟩

/-- `XRI 0x3C` at the highest PC the statement speaks of. -/
def xriBelowTop : State := { State.reset with pc := 0xFFFE#16, mem := [(0xFFFE, 0xEE#8), (0xFFFF, 0x3C#8)] }

theorem witness_XriOperandByteIsTheNextOpcode :
    xriBelowTop.canStep ∧ xriBelowTop.pc.toNat < 0xFFFF ∧
    fetchByte xriBelowTop xriBelowTop.pc.toNat = 0xEE#8 ∧
    fetchByte xriBelowTop (xriBelowTop.pc.toNat + 1) = 0x3C#8 := by decide

/-- The pc clauses of the rules stated without the wrap of PC, at the highest PC that does not wrap. -/
theorem witness_PcClausesWithoutWrap :
    State.pc { State.reset with pc := 0xFFFE#16 } = 0xFFFE#16 ∧ (0xFFFE#16 : Word).toNat + 1 < 65536 ∧
    (0xFFFD#16 : Word).toNat + 2 < 65536 := by decide

/-- A `CALL`, then a body with a store just below the link cell. -/
theorem witness_ReturnGoesToTheLastCall :
    ∃ t u, exec (.call 0x0010#16) State.reset = .next t ∧
      (∀ i ∈ [Instr.sta 0xFFFD#16, .nop], ∀ x ∈ storedAddresses i, x ≠ 0xFFFE ∧ x ≠ 0xFFFF) ∧
      execList [Instr.sta 0xFFFD#16, .nop] t = some u := by
  exact ⟨_, _, rfl, by decide, rfl⟩

theorem witness_InputTakesTheOldestSuppliedByte :
    State.input { State.reset with input := [0xFF#8] } = 0xFF#8 :: [] := by decide

theorem witness_InputWithNoByteHoldsForEver :
    waiting.canStep ∧ decode (fetchWindow waiting) = .ok (.inPort 0x01#8) ∧ waiting.input = [] := by
  exact ⟨by decide, rfl, by decide⟩

/-- An instruction that latches the flags, `IN` with a byte, and one that leaves them. -/
theorem witness_FlagsAreLatchedByExactlyTheListedInstructions :
    (∃ t, exec .addB State.reset = .next t ∧ flagAffecting Instr.addB.mnemonic = true) ∧
    (∃ t, exec (.inPort 0x00#8) { State.reset with input := [0x80#8] } = .next t ∧
      State.input { State.reset with input := [0x80#8] } ≠ []) ∧
    (∃ t, exec .inrB State.reset = .next t ∧ flagAffecting Instr.inrB.mnemonic = false) := by
  exact ⟨⟨_, rfl, rfl⟩, ⟨_, rfl, by decide⟩, _, rfl, rfl⟩

theorem witness_FlagsAreReadByTheConditionalJumpsOnly :
    (∃ t, readsFlags Instr.movAB.mnemonic = false ∧ exec .movAB State.reset = .next t) ∧
    ∃ t u v w x y, (0x0200#16 : Word) ≠ pcPlus State.reset.pc 3 ∧
      exec (.jz 0x0200#16) (State.reset.setFlags false true) = .next t ∧
      exec (.jz 0x0200#16) (State.reset.setFlags false false) = .next u ∧
      exec (.jnz 0x0200#16) (State.reset.setFlags false true) = .next v ∧
      exec (.jnz 0x0200#16) (State.reset.setFlags false false) = .next w ∧
      exec (.jm 0x0200#16) (State.reset.setFlags true false) = .next x ∧
      exec (.jm 0x0200#16) (State.reset.setFlags false false) = .next y := by
  exact ⟨⟨_, rfl, rfl⟩, _, _, _, _, _, _, by decide, rfl, rfl, rfl, rfl, rfl, rfl⟩

/-- Instructions outside each of the three lists. -/
theorem witness_OnlyListedInstructionsChangeARegister :
    ∃ t, exec (.sta 0x0020#16) State.reset = .next t ∧ flagAffecting Mnemonic.sta = false ∧
      writesB Mnemonic.sta = false ∧ writesC Mnemonic.sta = false := by
  exact ⟨_, rfl, rfl, rfl, rfl⟩

/-- `CALL` and the address just below the link cell. -/
theorem witness_EveryByteNotStoredToIsUnchanged :
    ∃ t, exec (.call 0x0010#16) State.reset = .next t ∧ 0xFFFD ∉ storedAddresses (.call 0x0010#16) := by
  exact ⟨_, rfl, by decide⟩

theorem witness_RunAndPortsChangeOnlyByTheirInstructions :
    (∃ t, exec .hlt State.reset = .next t) ∧
    (∃ t, exec (.outPort 0x03#8) State.reset = .next t) ∧
    (∃ t, exec (.inPort 0x03#8) { State.reset with input := [0x80#8] } = .next t) := by
  exact ⟨⟨_, rfl⟩, ⟨_, rfl⟩, _, rfl⟩

/-- One instruction per entry of the column "PC". -/
theorem witness_PcAdvancesOrIsOverwrittenAsTheTableSays :
    (∃ t, exec (.xri 0x00#8) State.reset = .next t ∧ Mnemonic.pcRule .xri = .advance 1) ∧
    (∃ t, exec .ret State.reset = .next t ∧ Mnemonic.pcRule .ret = .overwrite) ∧
    (∃ t, exec (.jm 0x0200#16) State.reset = .next t ∧ Mnemonic.pcRule .jm = .conditional) ∧
    (∃ t, exec (.inPort 0x00#8) { State.reset with input := [0x80#8] } = .next t ∧
      State.input { State.reset with input := [0x80#8] } ≠ []) := by
  exact ⟨⟨_, rfl, rfl⟩, ⟨_, rfl, rfl⟩, ⟨_, rfl, rfl⟩, _, rfl, by decide⟩

theorem witness_OnlyInputReadsTheEnvironment :
    ∃ t, Instr.mnemonic .ral ≠ .inPort ∧ exec .ral { State.reset with input := [0x80#8] } = .next t := by
  exact ⟨_, by decide, rfl⟩

/-- Each clause, at the ends of its range of addresses. -/
theorem witness_FetchSeesEveryStore :
    (∃ t, exec (.sta 0xFFFF#16) State.reset = .next t) ∧
    (∃ t, exec (.call 0xFFFF#16) State.reset = .next t) ∧
    (∃ t, exec .nop State.reset = .next t ∧ 65536 ≤ 65536) := by
  exact ⟨⟨_, rfl⟩, ⟨_, rfl⟩, _, rfl, Nat.le_refl _⟩

theorem witness_OperandsPastTheTopReadZero :
    badByteAtTop.pc = 0xFFFF#16 ∧ xriBelowTop.pc = 0xFFFE#16 := by decide

/-- The highest address of a two-byte access, and the addresses beside it. -/
theorem witness_MemoryPrimitivesReadAndWriteBytes :
    (0xFFFE#16 : Word).toNat < 0xFFFF ∧ 0xFFFD ≠ (0xFFFE#16 : Word).toNat ∧
    0xFFFD ≠ (0xFFFE#16 : Word).toNat + 1 := by decide

theorem witness_CanonicalMemoriesWithEqualBytesAreEqual :
    Memory.wf [(1, 0x01#8)] ∧ Memory.wf (Memory.write [] 1 0x01#8) ∧
    ∀ x, Memory.read [(1, 0x01#8)] x = Memory.read (Memory.write [] 1 0x01#8) x := by
  exact ⟨by decide, by decide, fun _ => rfl⟩

/-- The reset state, a faulting step, and a state with memory, output and flags of its own. -/
theorem witness_EveryStepKeepsTheInvariant :
    (State.reset.Inv ∧ ∃ t, step State.reset = .next t) ∧
    (badByteAtTop.Inv ∧ ∃ t, step badByteAtTop = .next t) ∧
    (State.Inv { ownStore with output := [⟨0x03#8, 0x09#8⟩] } ∧
      ∃ t, step { ownStore with output := [⟨0x03#8, 0x09#8⟩] } = .next t) := by
  exact ⟨⟨by decide, _, rfl⟩, ⟨by decide, _, rfl⟩, by decide, _, rfl⟩

theorem witness_FlagsFollowTheAccumulatorOnceWritten :
    (∃ t, flagAffecting (Instr.mnemonic .cma) = true ∧ exec .cma State.reset = .next t) ∧
    (∃ t, State.flagsFollowA { State.reset with zero := true } ∧
      step { State.reset with zero := true } = .next t) := by
  exact ⟨⟨_, rfl, rfl⟩, _, by decide, rfl⟩

theorem witness_ResetZeroesRegistersAndMemory : (List.replicate 65536 0xFF#8).length ≤ 65536 := by
  rw [List.length_replicate]

/-- The longest image accepted, the shortest refused, and the first address beyond a full one. -/
theorem witness_LoaderWritesOnlyMemoryAndPc :
    (List.replicate 65536 0xFF#8).length ≤ 65536 ∧ 65536 < (List.replicate 65537 0xFF#8).length ∧
    65535 < (List.replicate 65536 0xFF#8).length ∧ (List.replicate 65536 0xFF#8).length ≤ 65536 := by
  rw [List.length_replicate, List.length_replicate]
  decide

theorem witness_BootRunsTheInstructionAtTheStart :
    ([0x00#8] : List Byte).length = (0x0001#16 : Word).toNat ∧
    ([0x00#8] ++ encode (.call 0x1234#16) ++ [0x76#8]).length ≤ 65536 := by decide

theorem witness_EmptyMemoryIsANopSlide :
    State.canStep { State.reset with pc := 0xFFFF#16 } ∧ State.mem { State.reset with pc := 0xFFFF#16 } = [] := by
  decide

end Sys2Proof.Tests
end

/-! The statements about the state (10_state.md): reset and the loaded image, the latching of the flags,
and the instructions that read them. The flag statements rest on one classification, `flagUse`: what each
of the 43 instructions does with the two flags. -/

namespace Sys2Proof.Machine

/-! ### Reset and the loaded image (R12, R27) -/

@[simp] theorem hostReset_a (s : State) : (hostReset s).a = 0x00#8 := rfl
@[simp] theorem hostReset_b (s : State) : (hostReset s).b = 0x00#8 := rfl
@[simp] theorem hostReset_c (s : State) : (hostReset s).c = 0x00#8 := rfl
@[simp] theorem hostReset_mem (s : State) : (hostReset s).mem = [] := rfl

/-- With nothing stored, every fetch address reads 0x00: memory its reset content, the padding its own. -/
theorem fetchByte_of_mem_nil {s : State} (h : s.mem = []) (addr : Nat) : fetchByte s addr = 0x00#8 := by
  rcases Nat.lt_or_ge addr 65536 with hlow | hhigh
  · rw [fetchByte_low s hlow, h, Memory.read_nil]
  · exact fetchByte_padding s hhigh

/-- An image the Loader accepts is stored from address 0 upward. -/
theorem loadProgram_of_imageWf {bytes : List Byte} (h : imageWf bytes) (s : State) :
    loadProgram bytes s = some (s.setMem (Memory.storeBytes s.mem 0 bytes)) := if_pos h

/-- An image stored in empty memory is all that memory holds. -/
theorem read_storeBytes_nil {bytes : List Byte} (h : imageWf bytes) (addr : Nat) :
    Memory.read (Memory.storeBytes [] 0 bytes) addr = bytes.getD addr 0x00#8 := by
  rw [Memory.read_storeBytes]
  split
  · rfl
  · rename_i houtside
    have hbeyond : bytes.length ≤ addr := by
      have hlen : bytes.length ≤ Config.memSize := h
      omega
    rw [Memory.read_nil, List.getD_eq_default _ _ hbeyond]

/-- Settles O55, from the empty memory after reset and what a stored image reads as. -/
theorem resetZeroesRegistersAndMemory : Obligations.ResetZeroesRegistersAndMemory := by
  refine ⟨rfl, rfl, rfl, fun x => ⟨Memory.read_nil x, fetchByte_of_mem_nil rfl x⟩, fun s => ?_, ?_⟩
  · exact ⟨hostReset_a s, hostReset_b s, hostReset_c s, fetchByte_of_mem_nil (hostReset_mem s)⟩
  · intro s bytes hlen
    exact ⟨_, loadProgram_of_imageWf hlen _, read_storeBytes_nil hlen⟩

/-! ### Shared shapes and the flags -/

/-- No operand names a flag. -/
@[simp] theorem Operand.read_setFlags (s : State) (sg z : Bool) (src : Operand) :
    src.read (s.setFlags sg z) = src.read s := by
  cases src with
  | reg r => cases r <;> rfl
  | imm v => rfl
  | direct addr => rfl

/-- What writes `A` overwrites both flags, so their values before it are lost. -/
theorem accBinary_setFlags (f : Byte → Byte → Byte) (src : Operand) (count : Nat) (s : State)
    (sg z : Bool) : accBinary f src count (s.setFlags sg z) = accBinary f src count s := by
  rw [accBinary_eq, Operand.read_setFlags]
  rfl

/-- What writes `A` ends with the flags of the new `A` (R18, R101). -/
theorem flagsFollowA_of_accBinary {f : Byte → Byte → Byte} {src : Operand} {count : Nat} {s t : State}
    (h : accBinary f src count s = .next t) : t.flagsFollowA := by
  rw [accBinary_next h]
  exact ⟨rfl, rfl⟩

/-- A jump writes PC only: its target if taken, else PC + 3. -/
theorem jumpIf_eq_setPc (cond : Bool) (op16 : Word) (s : State) :
    jumpIf cond op16 s = .next (s.setPc (if cond then op16 else pcPlus s.pc 3)) := by
  cases cond <;> rfl

/-- An effect on the state that neither reads nor writes a flag: it commutes with replacing them. -/
def FlagBlind (g : State → State) : Prop :=
  ∀ s sg z, g (s.setFlags sg z) = (g s).setFlags sg z

/-- What commutes with replacing the flags leaves them as they are: replace them by themselves. -/
theorem FlagBlind.keeps_flags {g : State → State} (h : FlagBlind g) (s : State) :
    (g s).sign = s.sign ∧ (g s).zero = s.zero := by
  have hself : g s = (g s).setFlags s.sign s.zero := h s s.sign s.zero
  exact ⟨(congrArg State.sign hself :), (congrArg State.zero hself :)⟩

/-! ### The instructions that stand for themselves: the conditional jumps, `IN` and `OUT` -/

theorem exec_jz (p : Word) (s : State) :
    exec (.jz p) s = .next (s.setPc (if s.zero then p else pcPlus s.pc 3)) :=
  jumpIf_eq_setPc s.zero p s

theorem exec_jnz (p : Word) (s : State) :
    exec (.jnz p) s = .next (s.setPc (if !s.zero then p else pcPlus s.pc 3)) :=
  jumpIf_eq_setPc (!s.zero) p s

theorem exec_jm (p : Word) (s : State) :
    exec (.jm p) s = .next (s.setPc (if s.sign then p else pcPlus s.pc 3)) :=
  jumpIf_eq_setPc s.sign p s

/-- With no byte supplied `IN` is held (R140). -/
theorem exec_inPort_nil (port : Byte) {s : State} (h : s.input = []) :
    exec (.inPort port) s = .next s := by
  simp only [exec, execInPort, portIn_nil port h]

/-- With a byte supplied `IN` moves it to `A` and latches the flags, whatever the port (R140). -/
theorem exec_inPort_cons (port : Byte) {s : State} {v : Byte} {rest : List Byte} (h : s.input = v :: rest) :
    exec (.inPort port) s = .next ((writeAcc (s.setInput rest) v).advance 2) := by
  simp only [exec, execInPort, portIn_cons port h]

/-- `OUT` adds its event or nothing, and advances PC (R141). -/
theorem exec_outPort (port : Byte) (s : State) :
    exec (.outPort port) s = .next ((if port = outPort then portOut s outPort s.a else s).advance 2) := rfl

/-- Whether `OUT` acts is decided by its port alone. -/
theorem flagBlind_outPort (port : Byte) :
    FlagBlind (fun s => (if port = outPort then portOut s outPort s.a else s).advance 2) := by
  intro s sg z
  by_cases h : port = outPort
  · simp only [if_pos h]; rfl
  · simp only [if_neg h]; rfl

/-! ### What each instruction does with the flags -/

/-- What an instruction does with the flags, beside its place in the spec's list of R18. -/
inductive FlagUse (i : Instr) : Prop
  /-- It writes `A` and latches both flags from it. -/
  | latches (listed : flagAffecting i.mnemonic = true) (f : Byte → Byte → Byte) (src : Operand)
      (count : Nat) (effect : ∀ s, exec i s = accBinary f src count s)
  /-- `IN`: it latches them too, once a byte is supplied. -/
  | input (port : Byte) (isIn : i = .inPort port)
  /-- It neither reads nor writes them. -/
  | blind (unlisted : flagAffecting i.mnemonic = false) (g : State → State)
      (effect : ∀ s, exec i s = .next (g s)) (ignores : FlagBlind g)
  /-- It reads them and writes PC only. -/
  | reads (unlisted : flagAffecting i.mnemonic = false) (reader : readsFlags i.mnemonic = true)
      (target : State → Word) (effect : ∀ s, exec i s = .next (s.setPc (target s)))

/-- A function of `A` alone is a function of `A` and any operand. -/
theorem FlagUse.of_accUnary {i : Instr} {f : Byte → Byte} (listed : flagAffecting i.mnemonic = true)
    (effect : ∀ s, exec i s = accUnary f s) : FlagUse i :=
  .latches listed (fun x _ => f x) (.reg .a) 1 effect

/-- A load of `A` is a function of `A` and its operand that ignores `A`. -/
theorem FlagUse.of_accLoad {i : Instr} {src : Operand} {count : Nat}
    (listed : flagAffecting i.mnemonic = true) (effect : ∀ s, exec i s = accLoad src count s) : FlagUse i :=
  .latches listed (fun _ y => y) src count effect

/-- The use of the flags by all 43 instructions. -/
theorem flagUse (i : Instr) : FlagUse i := by
  cases i with
  | addB | addC | subB | subC | anaB | anaC | ani | oraB | oraC | ori | xraB | xraC | xri =>
    exact .latches rfl _ _ _ (fun _ => rfl)
  | cma | inrA | dcrA | ral | rar => exact .of_accUnary rfl (fun _ => rfl)
  | movAB | movAC | mviA | lda => exact .of_accLoad rfl (fun _ => rfl)
  | inPort port => exact .input port rfl
  | inrB | inrC | dcrB | dcrC | movBA | movBC | movCA | movCB | mviB | mviC | sta | jmp | call | ret | nop
  | hlt => exact .blind rfl _ (fun _ => rfl) (fun _ _ _ => rfl)
  | outPort port => exact .blind rfl _ (exec_outPort port) (flagBlind_outPort port)
  | jz p => exact .reads rfl rfl _ (exec_jz p)
  | jnz p => exact .reads rfl rfl _ (exec_jnz p)
  | jm p => exact .reads rfl rfl _ (exec_jm p)

/-! ### R18: who latches the flags -/

/-- An instruction of the list that completes leaves the flags of the new `A`. -/
theorem flagsFollowA_of_flagAffecting {i : Instr} {s t : State} (hl : flagAffecting i.mnemonic = true)
    (hin : i.mnemonic = .inPort → s.input ≠ []) (h : exec i s = .next t) : t.flagsFollowA := by
  cases flagUse i with
  | latches _ f src count effect => exact flagsFollowA_of_accBinary ((effect s).symm.trans h)
  | input port isIn =>
    subst isIn
    obtain ⟨v, rest, hsupplied⟩ := List.exists_cons_of_ne_nil (hin rfl)
    cases (exec_inPort_cons port hsupplied).symm.trans h
    exact ⟨rfl, rfl⟩
  | blind unlisted => simp [hl] at unlisted
  | reads unlisted => simp [hl] at unlisted

/-- An instruction outside the list leaves both flags. -/
theorem flags_eq_of_not_flagAffecting {i : Instr} {s t : State} (hl : flagAffecting i.mnemonic = false)
    (h : exec i s = .next t) : t.sign = s.sign ∧ t.zero = s.zero := by
  cases flagUse i with
  | latches listed => simp [hl] at listed
  | input port isIn => subst isIn; cases hl
  | blind _ g effect ignores =>
    cases (effect s).symm.trans h
    exact ignores.keeps_flags s
  | reads _ _ target effect =>
    cases (effect s).symm.trans h
    exact ⟨rfl, rfl⟩

/-- Settles O40, one clause for each side of the list of R18. -/
theorem flagsAreLatchedByExactlyTheListedInstructions :
    Obligations.FlagsAreLatchedByExactlyTheListedInstructions := by
  intro i s t h hin
  refine ⟨fun hl => ?_, fun hl => flags_eq_of_not_flagAffecting hl h, by decide⟩
  exact flagsFollowA_of_flagAffecting hl hin h

/-! ### R19: who reads the flags -/

/-- Of two runs that differ in the flags before an instruction that does not read them, either both write
the same flags or neither writes any; nothing else differs. -/
theorem exec_setFlags_of_not_readsFlags {i : Instr} {s t : State} (sg z : Bool)
    (hr : readsFlags i.mnemonic = false) (h : exec i s = .next t) :
    exec i (s.setFlags sg z) = .next t ∨
      (exec i (s.setFlags sg z) = .next (t.setFlags sg z) ∧ t.sign = s.sign ∧ t.zero = s.zero) := by
  cases flagUse i with
  | latches _ f src count effect =>
    left
    rw [effect, accBinary_setFlags, ← effect, h]
  | input port isIn =>
    subst isIn
    cases hinput : s.input with
    | nil =>
      right
      cases (exec_inPort_nil port hinput).symm.trans h
      exact ⟨exec_inPort_nil port hinput, rfl, rfl⟩
    | cons v rest =>
      left
      rw [← h, exec_inPort_cons port hinput]
      exact exec_inPort_cons port hinput
  | blind _ g effect ignores =>
    right
    cases (effect s).symm.trans h
    exact ⟨by rw [effect, ignores], ignores.keeps_flags s⟩
  | reads _ reader => simp [hr] at reader

/-- Replacing the flags by themselves changes nothing. -/
@[simp] theorem setFlags_self (s : State) : s.setFlags s.sign s.zero = s := rfl

/-- The PC after an instruction that only writes PC is what it wrote. -/
theorem pc_of_next_setPc {r : Result} {s t : State} {target : Word} (he : r = .next (s.setPc target))
    (h : r = .next t) : t.pc = target := by
  cases he.symm.trans h
  rfl

/-- Each conditional jump does read its flag: where the target is not PC + 3, the two values of the flag
lead to different addresses. -/
theorem conditional_jumps_depend_on_their_flag {p : Word} {s t u : State} (hp : p ≠ pcPlus s.pc 3) :
    (exec (.jz p) (s.setFlags s.sign true) = .next t → exec (.jz p) (s.setFlags s.sign false) = .next u →
      t.pc ≠ u.pc) ∧
    (exec (.jnz p) (s.setFlags s.sign true) = .next t → exec (.jnz p) (s.setFlags s.sign false) = .next u →
      t.pc ≠ u.pc) ∧
    (exec (.jm p) (s.setFlags true s.zero) = .next t → exec (.jm p) (s.setFlags false s.zero) = .next u →
      t.pc ≠ u.pc) := by
  refine ⟨fun ht hu => ?_, fun ht hu => ?_, fun ht hu => ?_⟩
  · rw [pc_of_next_setPc (exec_jz p _) ht, pc_of_next_setPc (exec_jz p _) hu]
    exact hp
  · rw [pc_of_next_setPc (exec_jnz p _) ht, pc_of_next_setPc (exec_jnz p _) hu]
    exact hp.symm
  · rw [pc_of_next_setPc (exec_jm p _) ht, pc_of_next_setPc (exec_jm p _) hu]
    exact hp

/-- Settles O41: the instructions that read no flag by the classification, the three that do by their
equations. -/
theorem flagsAreReadByTheConditionalJumpsOnly : Obligations.FlagsAreReadByTheConditionalJumpsOnly := by
  refine ⟨fun i s t sg z hr h => ?_, fun p s sg => ?_, fun p s z => ?_, fun p s t u hp => ?_⟩
  · rcases exec_setFlags_of_not_readsFlags sg z hr h with hsame | ⟨hblind, hsign, hzero⟩
    · exact ⟨t, hsame, setFlags_self t, .inl ⟨rfl, rfl⟩⟩
    · exact ⟨_, hblind, setFlags_self t, .inr ⟨rfl, rfl, hsign, hzero⟩⟩
  · exact ⟨_, _, exec_jz p s, exec_jz p _, exec_jnz p s, exec_jnz p _⟩
  · exact ⟨_, exec_jm p s, exec_jm p _⟩
  · exact conditional_jumps_depend_on_their_flag hp

end Sys2Proof.Machine

/-! The statements about memory (20_memory.md): the primitives `MemRead` and `MemWrite` of one and two
bytes, and the order of fetch, decode and write. -/

namespace Sys2Proof.Machine

/-! ### Words and their two bytes (R42) -/

theorem wordOf_toNat (hi lo : Byte) : (wordOf hi lo).toNat = lo.toNat + 256 * hi.toNat := by
  have hlo : lo.toNat < 2 ^ 8 := lo.isLt
  rw [wordOf, BitVec.toNat_append, ← Nat.shiftLeft_add_eq_or_of_lt hlo, Nat.shiftLeft_eq]
  omega

theorem loByte_toNat (v : Word) : (loByte v).toNat = v.toNat % 256 := by
  rw [loByte, BitVec.extractLsb'_toNat, Nat.shiftRight_zero]

theorem hiByte_toNat (v : Word) : (hiByte v).toNat = v.toNat / 256 := by
  have hv := v.isLt
  rw [hiByte, BitVec.extractLsb'_toNat, Nat.shiftRight_eq_div_pow]
  omega

/-- Below 0xFFFF the next address does not wrap. -/
theorem succ_toNat_of_lt_top {addr : Word} (h : addr.toNat < 0xFFFF) :
    (addr + 1#16).toNat = addr.toNat + 1 :=
  BitVec.toNat_add_of_lt (by rw [BitVec.toNat_ofNat]; omega)

/-! ### The primitives (R45, R46) -/

theorem read_memWrite8 (s : State) (addr : Word) (v : Byte) (x : Nat) :
    Memory.read (memWrite8 s addr v).mem x = if x = addr.toNat then v else Memory.read s.mem x :=
  Memory.read_write s.mem addr.toNat x v

theorem memRead16_toNat (s : State) {addr : Word} (h : addr.toNat < 0xFFFF) :
    (memRead16 s addr).toNat =
      (Memory.read s.mem addr.toNat).toNat + 256 * (Memory.read s.mem (addr.toNat + 1)).toNat := by
  rw [memRead16, wordOf_toNat, memRead8_eq, memRead8_eq, succ_toNat_of_lt_top h]

/-- Every byte of memory after a two-byte write. -/
theorem read_memWrite16 (s : State) {addr : Word} (v : Word) (h : addr.toNat < 0xFFFF) (x : Nat) :
    Memory.read (memWrite16 s addr v).mem x =
      if x = addr.toNat + 1 then hiByte v else if x = addr.toNat then loByte v
      else Memory.read s.mem x := by
  rw [memWrite16, read_memWrite8, read_memWrite8, succ_toNat_of_lt_top h]

/-- Settles O50, from what a write of one and of two bytes leaves at each address. -/
theorem memoryPrimitivesReadAndWriteBytes : Obligations.MemoryPrimitivesReadAndWriteBytes := by
  intro s addr v w x
  refine ⟨memRead8_eq s addr, read_memWrite8 s addr v x, fun htop =>
    ⟨memRead16_toNat s htop, ?low, ?high, fun hlow hhigh => ?frame⟩⟩
  case low => rw [read_memWrite16 s w htop, if_neg (by omega), if_pos rfl, loByte_toNat]
  case high => rw [read_memWrite16 s w htop, if_pos rfl, hiByte_toNat]
  case frame => rw [read_memWrite16 s w htop, if_neg hhigh, if_neg hlow]

/-! ### Fetch and decode before any write (R49, R190) -/

/-- An enabled step executes what the bytes at PC decode to. -/
theorem step_of_canStep {s : State} (h : s.canStep) :
    step s = executeDecoded s (decode (fetchWindow s)) := by
  obtain ⟨hrun, hfault⟩ := h
  rw [step, stepWith, hrun, hfault]
  rfl

theorem step_eq_exec {s : State} {i : Instr} (h : s.canStep) (hd : decode (fetchWindow s) = .ok i) :
    step s = exec i s := by
  rw [step_of_canStep h, hd]
  rfl

/-- A decoded instruction takes its operands from the window it was decoded from. -/
theorem withOperands_of_decode_ok {w : Window} {i : Instr} (h : decode w = .ok i) :
    i.mnemonic.withOperands w = i := by
  rcases decodeWith_cases opcodeMap w with ⟨m, -, hok⟩ | ⟨-, herror⟩
  · cases h.symm.trans hok
    rw [Mnemonic.mnemonic_withOperands]
  · cases h.symm.trans herror

theorem sta_operand_of_decode {w : Window} {p : Word} (h : decode w = .ok (.sta p)) : p = w.op16 :=
  (Instr.sta.inj (withOperands_of_decode_ok h)).symm

theorem call_operand_of_decode {w : Window} {p : Word} (h : decode w = .ok (.call p)) : p = w.op16 :=
  (Instr.call.inj (withOperands_of_decode_ok h)).symm

/-- `STA` writes one byte and advances PC (R120). -/
theorem exec_sta (p : Word) (s : State) : exec (.sta p) s = .next ((memWrite8 s p s.a).advance 3) := rfl

/-- `CALL` writes the link cell and jumps (R129). -/
theorem exec_call (p : Word) (s : State) :
    exec (.call p) s = .next ((writeLink s (pcPlus s.pc 3)).setPc p) := rfl

/-- Settles O9: the step is `exec` of what the state before it decodes to, whose operand is that state's. -/
theorem operandsAreFetchedBeforeAnyWrite : Obligations.OperandsAreFetchedBeforeAnyWrite := by
  intro s hstep
  refine ⟨fun i hd => step_eq_exec hstep hd, fun p hd => ?sta, fun p hd => ?call⟩
  case sta =>
    refine ⟨sta_operand_of_decode hd, _, (step_eq_exec hstep hd).trans (exec_sta p s), ?_, fun x hx => ?_⟩
    · rw [advance_eq, setPc_mem, read_memWrite8, if_pos rfl]
    · rw [advance_eq, setPc_mem, read_memWrite8, if_neg hx]
  case call =>
    exact ⟨call_operand_of_decode hd, _, (step_eq_exec hstep hd).trans (exec_call p s), setPc_pc _ p⟩

end Sys2Proof.Machine

/-! The statement about the encoding (30_encoding.md): where each field of each format stands. -/

namespace Sys2Proof.Machine

/-- Under any opcode map, what decodes is the instruction of a mnemonic that byte 0 is the opcode of, with
the operands of the window. -/
theorem eq_withOperands_of_decodeWith_ok {map : OpcodeMap} {w : Window} {i : Instr}
    (h : decodeWith map w = .ok i) : ∃ m : Mnemonic, map m = w.b0 ∧ i = m.withOperands w := by
  rcases decodeWith_cases map w with ⟨m, hopcode, hok⟩ | ⟨-, herror⟩
  · exact ⟨m, hopcode, Except.ok.inj (h.symm.trans hok)⟩
  · cases h.symm.trans herror

/-! ### The bits of the 16-bit operand (R61) -/

/-- Bits 7:0 of `op16` are byte 1. -/
theorem op16_toNat_mod (w : Window) : w.op16.toNat % 256 = w.b1.toNat := by
  rw [Window.op16, wordOf_toNat, Nat.add_mul_mod_self_left, Nat.mod_eq_of_lt w.b1.isLt]

/-- Bits 15:8 of `op16` are byte 2. -/
theorem op16_toNat_div (w : Window) : w.op16.toNat / 256 = w.b2.toNat := by
  rw [Window.op16, wordOf_toNat, Nat.add_mul_div_left _ _ (by decide), Nat.div_eq_of_lt w.b1.isLt,
    Nat.zero_add]

/-- Settles O3: what decodes is built from the window, so its fields are read off format by format. -/
theorem operandsStandInTheirBytes : Obligations.OperandsStandInTheirBytes := by
  refine ⟨fun s => ⟨rfl, rfl, rfl⟩, fun map w i h => ?_⟩
  obtain ⟨m, hopcode, rfl⟩ := eq_withOperands_of_decodeWith_ok h
  refine ⟨by rw [Mnemonic.mnemonic_withOperands, hopcode], ?_⟩
  cases m with
  | mviA | mviB | mviC | ani | ori | xri | inPort | outPort => exact ⟨rfl, rfl⟩
  | lda | sta | jmp | jz | jnz | jm | call => exact ⟨rfl, op16_toNat_mod w, op16_toNat_div w⟩
  | nop | inrA | inrB | inrC | dcrA | dcrB | dcrC | ral | rar | cma | movAB | movAC | movBA | movBC | movCA
  | movCB | addB | addC | subB | subC | anaB | anaC | oraB | oraC | xraB | xraC | ret | hlt => rfl

end Sys2Proof.Machine

/-! The statement about subtraction (40_alu.md): `SUB_B` with its whole frame. -/

namespace Sys2Proof.Machine

/-- The difference of R82 in the integers, where no borrow is added before the reduction. -/
theorem aluSub_toNat_eq_emod (x y : Byte) :
    ((aluSub x y).toNat : Int) = ((x.toNat : Int) - (y.toNat : Int)) % 256 := by
  have hy := y.isLt
  rw [aluSub_toNat]
  omega

/-- Where the advance fits in 16 bits, PC does not wrap. -/
theorem pcPlus_toNat_of_lt {pc : Word} {count : Nat} (h : pc.toNat + count < 65536) :
    (pcPlus pc count).toNat = pc.toNat + count := by
  rw [pcPlus_toNat, Nat.mod_eq_of_lt h]

theorem zeroOf_eq_decide (v : Byte) : zeroOf v = decide (v = 0x00#8) := by
  rw [Bool.eq_iff_iff, zeroOf_iff, decide_eq_true_iff]

/-- `SUB_B` writes the difference to `A`, latches both flags from it, and advances PC (R82). -/
theorem exec_subB (s : State) :
    exec .subB s = .next ((writeAcc s (aluSub s.a s.b)).advance 1) := rfl

/-- Settles O15: the next state is three field updates, so each clause is read off the last of them that
writes its field. -/
theorem subtractBWholeRule : Obligations.SubtractBWholeRule := by
  refine ⟨rfl, fun s => ⟨_, exec_subB s, ?_⟩⟩
  rw [advance_eq, writeAcc_eq]
  refine ⟨?difference, ?sign, ?zero, fun hfits => ?pc, ?frame⟩
  case difference => exact aluSub_toNat_eq_emod s.a s.b
  case sign => rfl
  case zero => exact zeroOf_eq_decide (aluSub s.a s.b)
  case pc => exact pcPlus_toNat_of_lt hfits
  case frame => exact ⟨rfl, rfl, rfl, rfl, rfl, rfl, fun _ => rfl⟩

end Sys2Proof.Machine

/-! The statements about the immediate moves (41_move_load_store.md): `MVI_A` and `MVI_B` with their whole
frames. -/

namespace Sys2Proof.Machine

/-- `MVI_A` writes the immediate to `A`, latches both flags from it, and advances PC by 2 (R116). -/
theorem exec_mviA (op8 : Byte) (s : State) :
    exec (.mviA op8) s = .next ((writeAcc s op8).advance 2) := rfl

/-- `MVI_B` writes the immediate to `B` and advances PC by 2 (R117). -/
theorem exec_mviB (op8 : Byte) (s : State) :
    exec (.mviB op8) s = .next ((s.setReg .b op8).advance 2) := rfl

/-- Settles O24: the next state is three field updates; only the zero flag and the unwrapped PC are more
than reading off the last of them that writes a field. -/
theorem moveImmediateToAWholeRule : Obligations.MoveImmediateToAWholeRule := by
  refine fun op8 => ⟨rfl, fun s => ⟨_, exec_mviA op8 s, ?_⟩⟩
  rw [advance_eq, writeAcc_eq]
  exact ⟨rfl, rfl, zeroOf_eq_decide op8, pcPlus_toNat_of_lt, rfl, rfl, rfl, rfl, rfl, rfl, fun _ => rfl⟩

/-- Settles O25: neither the register write nor the advance touches a flag. -/
theorem moveImmediateToBWholeRule : Obligations.MoveImmediateToBWholeRule := by
  refine fun op8 => ⟨rfl, fun s => ⟨_, exec_mviB op8 s, ?_⟩⟩
  rw [advance_eq]
  exact ⟨rfl, rfl, rfl, pcPlus_toNat_of_lt, rfl, rfl, rfl, rfl, rfl, rfl, fun _ => rfl⟩

end Sys2Proof.Machine

/-! The statements about output and halting (43_io_misc.md): `OUT` and `HLT` with their whole frames. -/

namespace Sys2Proof.Machine

/-- On every port `OUT` writes the output history and PC only: whether it acts is a choice of the history
written (R141). -/
theorem exec_outPort_eq_setOutput (port : Byte) (s : State) :
    exec (.outPort port) s = .next ((s.setOutput
      (if port = outPort then s.output ++ [⟨outPort, s.a⟩] else s.output)).advance 2) := by
  rw [exec_outPort]
  by_cases hport : port = outPort
  · rw [if_pos hport, if_pos hport, portOut_eq]
  · rw [if_neg hport, if_neg hport]
    rfl

/-- `HLT` advances PC, then sets RUN to Halted (R145). -/
theorem exec_hlt (s : State) : exec .hlt s = .next (halt (s.advance 1)) := rfl

/-- A step answers a next state only on a running machine (R190). -/
theorem step_ne_next_of_halted {s : State} (h : s.run = .halted) (u : State) : step s ≠ .next u := by
  intro hnext
  obtain ⟨-, hrunning, -⟩ := stepWith_next hnext
  cases h.symm.trans hrunning

/-- Settles O34: the next state is one update of the output history and one of PC, so only the unwrapped PC
is more than reading off a field. -/
theorem outputOnPortThreeOnly : Obligations.OutputOnPortThreeOnly := by
  refine fun op8 => ⟨rfl, fun s => ⟨_, exec_outPort_eq_setOutput op8 s, ?_⟩⟩
  rw [advance_eq]
  exact ⟨rfl, pcPlus_toNat_of_lt, rfl, rfl, rfl, rfl, rfl, rfl, rfl, rfl, fun _ => rfl⟩

/-- Settles O37: only PC and RUN are written, and a halted machine has no step. -/
theorem haltWholeRule : Obligations.HaltWholeRule := by
  refine ⟨rfl, fun s => ⟨_, exec_hlt s, ?_⟩⟩
  rw [halt_eq, advance_eq]
  refine ⟨?pc, ?frame, ?stopped⟩
  case pc => exact pcPlus_toNat s.pc 1
  case frame => rfl
  case stopped => exact step_ne_next_of_halted (setRun_run _ _)

end Sys2Proof.Machine

/-! The statement about the exception (60_exceptions.md): an unassigned opcode is latched with its address,
and nothing else sets `FAULT`. -/

namespace Sys2Proof.Machine

/-! ### No instruction writes `FAULT` (R161, R164) -/

/-- An instruction that decodes raises nothing: it leaves `FAULT` as it was. -/
theorem fault_eq_of_exec {i : Instr} {s t : State} (h : exec i s = .next t) : t.fault = s.fault := by
  cases i with
  | addB | addC | subB | subC | anaB | anaC | ani | oraB | oraC | ori | xraB | xraC | xri =>
    exact (congrArg State.fault (accBinary_next h) :)
  | cma | inrA | dcrA | ral | rar => exact (congrArg State.fault (accUnary_next h) :)
  | movAB | movAC | mviA | lda => exact (congrArg State.fault (accLoad_next h) :)
  | inrB | inrC | dcrB | dcrC => exact (congrArg State.fault (regUnary_next h) :)
  | movBA | movBC | movCA | movCB | mviB | mviC => exact (congrArg State.fault (regLoad_next h) :)
  | sta | jmp | call | ret | nop | hlt =>
    cases h
    rfl
  | jz | jnz | jm =>
    cases (jumpIf_eq_setPc _ _ s).symm.trans h
    rfl
  | outPort port =>
    cases (exec_outPort_eq_setOutput port s).symm.trans h
    rfl
  | inPort port =>
    cases hinput : s.input with
    | nil =>
      cases (exec_inPort_nil port hinput).symm.trans h
      rfl
    | cons v rest =>
      cases (exec_inPort_cons port hinput).symm.trans h
      rfl

/-! ### The decode error (R160) -/

/-- Decode refuses exactly the windows whose byte 0 is no opcode, and names that byte. -/
theorem decode_eq_error_iff {w : Window} {opcode : Byte} :
    decode w = .error (.unassignedOpcode opcode) ↔
      (∀ m ∈ Mnemonic.all, opcodeMap m ≠ w.b0) ∧ opcode = w.b0 := by
  rcases decodeWith_cases opcodeMap w with ⟨m, hopcode, hok⟩ | ⟨hunassigned, herror⟩
  · constructor
    · intro h
      cases hok.symm.trans h
    · rintro ⟨hunassigned, -⟩
      exact absurd hopcode (hunassigned m (Mnemonic.mem_all m))
  · constructor
    · intro h
      cases herror.symm.trans h
      exact ⟨fun m _ => hunassigned m, rfl⟩
    · rintro ⟨-, rfl⟩
      exact herror

/-- An enabled step that decode refuses raises the decode error. -/
theorem step_eq_raiseDecodeError {s : State} {opcode : Byte} (h : s.canStep)
    (hd : decode (fetchWindow s) = .error (.unassignedOpcode opcode)) :
    step s = .next (raiseDecodeError s opcode) := by
  rw [step_of_canStep h, hd]
  rfl

/-- A step answers a next state only on an unfaulted machine (R190). -/
theorem step_ne_next_of_faulted {s : State} (h : s.fault ≠ none) (u : State) : step s ≠ .next u := by
  intro hnext
  obtain ⟨hunfaulted, -, -⟩ := stepWith_next hnext
  exact h hunfaulted

/-- A step that sets `FAULT` took the decode error: what it executes never does. -/
theorem decode_error_of_step_faulted {s t : State} (h : step s = .next t) (ht : t.fault ≠ none) :
    ∃ opcode, decode (fetchWindow s) = .error (.unassignedOpcode opcode) ∧ t = raiseDecodeError s opcode := by
  obtain ⟨hunfaulted, -, ⟨i, -, hexec⟩ | hraised⟩ := stepWith_next h
  · exact absurd ((fault_eq_of_exec hexec).trans hunfaulted) ht
  · exact hraised

/-- Settles O12: decode refuses exactly the unassigned bytes, and its refusal is the one thing that sets
`FAULT`. -/
theorem decodeErrorLatchesOpcodeAndPc : Obligations.DecodeErrorLatchesOpcodeAndPc := by
  refine fun s hstep => ⟨fun hunassigned => ⟨?latched, ?stopped⟩, fun t hnext ht => ?converse⟩
  case latched => exact step_eq_raiseDecodeError hstep (decode_eq_error_iff.2 ⟨hunassigned, rfl⟩)
  case stopped => exact step_ne_next_of_faulted (Option.some_ne_none _)
  case converse =>
    obtain ⟨opcode, herror, rfl⟩ := decode_error_of_step_faulted hnext ht
    obtain ⟨hunassigned, rfl⟩ := decode_eq_error_iff.1 herror
    exact ⟨hunassigned, rfl⟩

end Sys2Proof.Machine

/-! The statements about the encoding (30_encoding.md): decode and encode invert each other, under any opcode
map, and the spec's table. -/

namespace Sys2Proof.Machine

open Sys2Proof.Laws

/-! ### Decode inverts encode (R60 to R62) -/

/-- Every instruction's encoding has the size, the opcode and the operands of its format. -/
theorem encodedSize_statement (i : Instr) : EncodedSize.Statement i := by
  cases i with
  | nop | inrA | inrB | inrC | dcrA | dcrB | dcrC | ral | rar | cma | movAB | movAC | movBA | movBC | movCA
  | movCB | addB | addC | subB | subC | anaB | anaC | oraB | oraC | xraB | xraC | ret | hlt =>
    exact EncodedSize.of_n rfl rfl (fun _ => rfl)
  | mviA | mviB | mviC | ani | ori | xri | inPort | outPort =>
    exact EncodedSize.of_i8 rfl rfl (fun _ _ => rfl)
  | lda | sta | jmp | jz | jnz | jm | call =>
    exact EncodedSize.of_a16 rfl rfl (fun w hop16 => by subst hop16; rfl)

/-- Under an injective map two mnemonics with one opcode are the same. -/
theorem eq_of_opcode_eq {map : OpcodeMap} (hinj : OpcodeMap.injective map) {m n : Mnemonic}
    (h : map m = map n) : m = n :=
  List.inj_on_of_nodup_map hinj (Mnemonic.mem_all m) (Mnemonic.mem_all n) h

/-- Under an injective map a mnemonic's opcode is decoded as that mnemonic. -/
theorem decodeWith_of_opcode {map : OpcodeMap} (hinj : OpcodeMap.injective map) {w : Window} {m : Mnemonic}
    (h : map m = w.b0) : decodeWith map w = .ok (m.withOperands w) := by
  rcases decodeWith_cases map w with ⟨n, hopcode, hok⟩ | ⟨hunassigned, -⟩
  · rw [hok, eq_of_opcode_eq hinj (hopcode.trans h.symm)]
  · exact absurd h (hunassigned m)

/-- Settles O1: the opcode finds its one mnemonic, whose operands read back. -/
theorem decodeInvertsEncodeUnderAnyInjectiveMap : Obligations.DecodeInvertsEncodeUnderAnyInjectiveMap := by
  intro map hinj i rest
  obtain ⟨-, hopcode, hoperands⟩ := encodedSize_statement i map rest
  rw [decodeWith_of_opcode hinj hopcode.symm, hoperands]

/-! ### Encode inverts decode -/

/-- The operand bytes of what is built from a window are the window's bytes after byte 0. -/
theorem operandBytes_withOperands (m : Mnemonic) (w : Window) :
    (m.withOperands w).operandBytes = [w.b1, w.b2].take (m.shape.size - 1) := by
  cases m with
  | nop | inrA | inrB | inrC | dcrA | dcrB | dcrC | ral | rar | cma | movAB | movAC | movBA | movBC | movCA
  | movCB | addB | addC | subB | subC | anaB | anaC | oraB | oraC | xraB | xraC | ret | hlt
  | mviA | mviB | mviC | ani | ori | xri | inPort | outPort => rfl
  | lda | sta | jmp | jz | jnz | jm | call =>
    exact congrArg₂ (fun lo hi => [lo, hi]) (loByte_wordOf w.b2 w.b1) (hiByte_wordOf w.b2 w.b1)

theorem shape_size_eq_succ (f : Shape) : f.size = f.size - 1 + 1 := by
  cases f <;> rfl

/-- Settles O2: byte 0 is the opcode of the mnemonic found, and the operands were taken from the bytes
after it. -/
theorem encodeInvertsDecodeUnderAnyMap : Obligations.EncodeInvertsDecodeUnderAnyMap := by
  intro map w i h
  obtain ⟨m, hopcode, rfl⟩ := eq_withOperands_of_decodeWith_ok h
  rw [encodeWith, Mnemonic.mnemonic_withOperands, operandBytes_withOperands, hopcode,
    shape_size_eq_succ m.shape, List.take_succ_cons, Nat.add_sub_cancel]

/-! ### The spec's table (R63, R64, R67) -/

/-- Settles O4. -/
theorem specOpcodeMapIsLegal : Obligations.SpecOpcodeMapIsLegal := by
  unfold Obligations.SpecOpcodeMapIsLegal
  decide

/-- Settles O6: the decoder run on each word. -/
theorem wordsDecodeAsTheTableSays : Obligations.WordsDecodeAsTheTableSays := by
  exact ⟨rfl, rfl, rfl, rfl, rfl, rfl, rfl, rfl, rfl, rfl, rfl, rfl⟩

/-- An opcode value the spec lists as illegal (R67). -/
def listedIllegal (opcode : Nat) : Bool :=
  illegalRanges.any (fun r => r.1 ≤ opcode && opcode ≤ r.2)

/-- No opcode of the table is listed as illegal. -/
theorem not_listedIllegal_opcodeMap (m : Mnemonic) : listedIllegal (opcodeMap m).toNat = false := by
  cases m <;> rfl

/-- Every opcode value, named by its two hexadecimal digits, is one of the table or is listed as illegal. -/
theorem assigned_or_listedIllegal : ∀ high < 16, ∀ low < 16, listedIllegal (16 * high + low) = true ∨
    ∃ m ∈ Mnemonic.all, (opcodeMap m).toNat = 16 * high + low := by
  decide

/-- Settles O5: the table and the spec's list of illegal values share none and leave none out. -/
theorem unassignedBytesAreRefused : Obligations.UnassignedBytesAreRefused := by
  intro w
  rw [decode_eq_error_iff]
  constructor
  · rintro ⟨hunassigned, -⟩
    have hlt : w.b0.toNat < 256 := w.b0.isLt
    have hcover := assigned_or_listedIllegal (w.b0.toNat / 16) (by omega) (w.b0.toNat % 16) (by omega)
    rw [Nat.div_add_mod] at hcover
    refine hcover.resolve_right ?_
    rintro ⟨m, hm, hopcode⟩
    exact hunassigned m hm (BitVec.eq_of_toNat_eq hopcode)
  · intro hlisted
    refine ⟨fun m _ hopcode => ?_, rfl⟩
    have hnot := not_listedIllegal_opcodeMap m
    rw [hopcode] at hnot
    exact absurd hlisted (Bool.eq_false_iff.1 hnot)

/-! ### Which window decodes to an instruction -/

/-- Under an injective map a window decodes to an instruction exactly when it begins with its encoding. -/
theorem decodeWith_ok_iff {map : OpcodeMap} (hinj : OpcodeMap.injective map) {w : Window} {i : Instr} :
    decodeWith map w = .ok i ↔ encodeWith map i = [w.b0, w.b1, w.b2].take i.mnemonic.shape.size := by
  refine ⟨encodeInvertsDecodeUnderAnyMap map w i, fun h => ?_⟩
  have hround := decodeInvertsEncodeUnderAnyInjectiveMap map hinj i
    ([w.b0, w.b1, w.b2].drop i.mnemonic.shape.size)
  rwa [h, List.take_append_drop] at hround

end Sys2Proof.Machine

/-! The statements about the step (70_reset_and_hazards.md): it runs the instruction whose bytes stand at PC,
and it always answers, or never does. -/

namespace Sys2Proof.Machine

/-- The spec's map is injective, so every fact about injective maps holds of it. -/
theorem opcodeMap_injective : OpcodeMap.injective opcodeMap := specOpcodeMapIsLegal.1

/-! ### The instruction at PC (R48, R190) -/

/-- The bytes of a window as the fetch reads them, byte `k` at PC + `k`. -/
theorem getElem_fetchWindow (s : State) {k : Nat}
    (hk : k < [(fetchWindow s).b0, (fetchWindow s).b1, (fetchWindow s).b2].length) :
    [(fetchWindow s).b0, (fetchWindow s).b1, (fetchWindow s).b2][k] = fetchByte s (s.pc.toNat + k) := by
  match k, hk with
  | 0, _ => rfl
  | 1, _ => rfl
  | 2, _ => rfl

theorem encode_length (i : Instr) : (encode i).length = i.mnemonic.shape.size :=
  (encodedSize_statement i opcodeMap []).1

theorem shape_size_le_three (f : Shape) : f.size ≤ 3 := by
  cases f <;> decide

/-- Where the bytes of an instruction stand at PC, the fetched window decodes to it. -/
theorem decode_fetchWindow_of_bytes {s : State} {i : Instr}
    (h : ∀ k < (encode i).length, fetchByte s (s.pc.toNat + k) = (encode i).getD k 0x00#8) :
    decode (fetchWindow s) = .ok i := by
  refine (decodeWith_ok_iff opcodeMap_injective).2 (List.ext_getElem ?_ fun k hk _ => ?_)
  · rw [List.length_take]
    exact (encode_length i).trans (Nat.min_eq_left (shape_size_le_three _)).symm
  · rw [List.getElem_take, getElem_fetchWindow, h k hk]
    exact List.getElem_eq_getD _

/-- Settles O8. -/
theorem stepRunsTheEncodedInstruction : Obligations.StepRunsTheEncodedInstruction :=
  fun _ _ hstep hbytes => step_eq_exec hstep (decode_fetchWindow_of_bytes hbytes)

/-- Settles O7. -/
theorem stepRunsTheDecodedInstruction : Obligations.StepRunsTheDecodedInstruction :=
  fun _ _ hstep hd => step_eq_exec hstep hd

/-! ### Whether there is a next state -/

/-- Every instruction answers a next state, a held `IN` among them. -/
theorem exec_answers_next (i : Instr) (s : State) : ∃ t, exec i s = .next t := by
  cases i with
  | inPort port =>
    cases hinput : s.input with
    | nil => exact ⟨_, exec_inPort_nil port hinput⟩
    | cons v rest => exact ⟨_, exec_inPort_cons port hinput⟩
  | _ => exact ⟨_, rfl⟩

/-- Settles O39. -/
theorem everyInstructionAnswersNextAndLeavesFaultAlone :
    Obligations.EveryInstructionAnswersNextAndLeavesFaultAlone := by
  intro i s
  obtain ⟨t, hexec⟩ := exec_answers_next i s
  exact ⟨t, hexec, fault_eq_of_exec hexec⟩

/-- Settles O10: what decodes is executed, and what does not is taken as a decode error. -/
theorem enabledStepAlwaysAnswersNext : Obligations.EnabledStepAlwaysAnswersNext := by
  intro s hstep
  match hd : decode (fetchWindow s) with
  | .ok i =>
    obtain ⟨t, hexec⟩ := exec_answers_next i s
    exact ⟨t, (step_eq_exec hstep hd).trans hexec⟩
  | .error (.unassignedOpcode opcode) => exact ⟨_, step_eq_raiseDecodeError hstep hd⟩

/-- Settles O11: `FAULT` is tested first, then RUN. -/
theorem stoppedMachineHasNoStep : Obligations.StoppedMachineHasNoStep := by
  refine fun s => ⟨fun f hfault => ?_, fun hfault hrun => ?_⟩
  · rw [step, stepWith, hfault]
  · rw [step, stepWith, hfault, hrun]

end Sys2Proof.Machine

/-! The statements about what an instruction leaves unchanged (10_state.md) and about the machine's invariant.
They rest on one inversion lemma, `effect_of_exec`: all that executing an instruction can do to the state. -/

namespace Sys2Proof.Machine

/-! ### All that an instruction can do -/

/-- The mnemonics that reach neither RUN nor the environment: all but `HLT`, `IN` and `OUT`. -/
def isInternal (m : Mnemonic) : Bool :=
  m != .hlt && m != .inPort && m != .outPort

/-- What executing an instruction at a state can lead to. -/
inductive Effect (s : State) : Instr → State → Prop
  /-- It writes `A` and latches both flags from it. -/
  | writeA {i : Instr} (v : Byte) (count : Nat) (listed : flagAffecting i.mnemonic = true)
      (internal : isInternal i.mnemonic = true) : Effect s i ((writeAcc s v).advance count)
  | writeB {i : Instr} (v : Byte) (count : Nat) (listed : writesB i.mnemonic = true)
      (internal : isInternal i.mnemonic = true) : Effect s i ((s.setReg .b v).advance count)
  | writeC {i : Instr} (v : Byte) (count : Nat) (listed : writesC i.mnemonic = true)
      (internal : isInternal i.mnemonic = true) : Effect s i ((s.setReg .c v).advance count)
  /-- It writes PC only: `NOP`, `RET` and the jumps. -/
  | pcOnly {i : Instr} (target : Word) (internal : isInternal i.mnemonic = true) : Effect s i (s.setPc target)
  | store (p : Word) : Effect s (.sta p) ((memWrite8 s p s.a).advance 3)
  | link (p : Word) : Effect s (.call p) ((writeLink s (pcPlus s.pc 3)).setPc p)
  | halted : Effect s .hlt (halt (s.advance 1))
  | event (port : Byte) : Effect s (.outPort port)
      ((s.setOutput (if port = outPort then s.output ++ [⟨outPort, s.a⟩] else s.output)).advance 2)
  /-- No byte is supplied, so the `IN` is held (R140). -/
  | held (port : Byte) (empty : s.input = []) : Effect s (.inPort port) s
  | taken (port : Byte) {v : Byte} {rest : List Byte} (supplied : s.input = v :: rest) :
      Effect s (.inPort port) ((writeAcc (s.setInput rest) v).advance 2)

theorem effect_of_exec {i : Instr} {s t : State} (h : exec i s = .next t) : Effect s i t := by
  cases i with
  | addB | addC | subB | subC | anaB | anaC | ani | oraB | oraC | ori | xraB | xraC | xri | cma | inrA | dcrA
  | ral | rar | movAB | movAC | mviA | lda =>
    cases h
    exact .writeA _ _ rfl rfl
  | inrB | dcrB | movBA | movBC | mviB =>
    cases h
    exact .writeB _ _ rfl rfl
  | inrC | dcrC | movCA | movCB | mviC =>
    cases h
    exact .writeC _ _ rfl rfl
  | nop | jmp | ret =>
    cases h
    exact .pcOnly _ rfl
  | jz | jnz | jm =>
    cases (jumpIf_eq_setPc _ _ s).symm.trans h
    exact .pcOnly _ rfl
  | sta p =>
    cases h
    exact .store p
  | call p =>
    cases h
    exact .link p
  | hlt =>
    cases h
    exact .halted
  | outPort port =>
    cases (exec_outPort_eq_setOutput port s).symm.trans h
    exact .event port
  | inPort port =>
    cases hinput : s.input with
    | nil =>
      cases (exec_inPort_nil port hinput).symm.trans h
      exact .held port hinput
    | cons v rest =>
      cases (exec_inPort_cons port hinput).symm.trans h
      exact .taken port hinput

/-! ### The frame of each piece of state (R11, R26, R23, R30) -/

theorem a_eq_of_exec {i : Instr} {s t : State} (h : exec i s = .next t)
    (hl : flagAffecting i.mnemonic = false) : t.a = s.a := by
  cases effect_of_exec h with
  | writeA _ _ listed => simp [hl] at listed
  | taken => cases hl
  | _ => rfl

theorem b_eq_of_exec {i : Instr} {s t : State} (h : exec i s = .next t)
    (hl : writesB i.mnemonic = false) : t.b = s.b := by
  cases effect_of_exec h with
  | writeB _ _ listed => simp [hl] at listed
  | _ => rfl

theorem c_eq_of_exec {i : Instr} {s t : State} (h : exec i s = .next t)
    (hl : writesC i.mnemonic = false) : t.c = s.c := by
  cases effect_of_exec h with
  | writeC _ _ listed => simp [hl] at listed
  | _ => rfl

/-- Settles O42, one frame lemma per register. -/
theorem onlyListedInstructionsChangeARegister : Obligations.OnlyListedInstructionsChangeARegister :=
  fun _ _ _ h => ⟨a_eq_of_exec h, b_eq_of_exec h, c_eq_of_exec h⟩

/-- Settles O43: only `STA` and `CALL` write memory, each at its listed addresses. -/
theorem everyByteNotStoredToIsUnchanged : Obligations.EveryByteNotStoredToIsUnchanged := by
  intro i s t h x hx
  cases effect_of_exec h with
  | store p =>
    have hne : x ≠ p.toNat := fun hxp => hx (hxp ▸ List.mem_singleton_self _)
    rw [advance_eq, setPc_mem, read_memWrite8, if_neg hne]
  | link p =>
    have hne : x ≠ 0xFFFE ∧ x ≠ 0xFFFF := by simpa [storedAddresses] using hx
    rw [setPc_mem, read_writeLink, if_neg hne.2, if_neg hne.1]
  | _ => rfl

/-- An internal instruction is none of the three that RUN, the input and the output speak of. -/
theorem isInternal_iff {i : Instr} : isInternal i.mnemonic = true ↔
    i ≠ .hlt ∧ i.mnemonic ≠ .inPort ∧ ∀ port, i ≠ .outPort port := by
  cases i <;> simp [isInternal, Instr.mnemonic]

/-- Settles O44. -/
theorem runAndPortsChangeOnlyByTheirInstructions : Obligations.RunAndPortsChangeOnlyByTheirInstructions := by
  intro i s t h
  cases effect_of_exec h with
  | writeA _ _ _ internal | writeB _ _ _ internal | writeC _ _ _ internal | pcOnly _ internal =>
    obtain ⟨hhlt, hin, hout⟩ := isInternal_iff.1 internal
    rw [if_neg hhlt, if_neg hin, if_neg (hout _)]
    exact ⟨rfl, rfl, rfl⟩
  | store | link | halted => exact ⟨rfl, rfl, rfl⟩
  | event port =>
    exact ⟨rfl, rfl, if_congr (iff_of_eq (Instr.outPort.injEq port outPort)).symm rfl rfl⟩
  | held _ empty => exact ⟨rfl, empty.trans (congrArg List.tail empty).symm, rfl⟩
  | taken _ supplied => exact ⟨rfl, (congrArg List.tail supplied).symm, rfl⟩

/-- Settles O13: what decodes leaves `FAULT` and, but for `HLT`, RUN as they were; what does not is recorded. -/
theorem runEndsByHaltOrByFault : Obligations.RunEndsByHaltOrByFault := by
  rintro s t ⟨hrun, hfault⟩ hnext
  obtain ⟨-, -, ⟨i, hd, hexec⟩ | ⟨opcode, -, rfl⟩⟩ := stepWith_next hnext
  · have hfault' : t.fault = none := (fault_eq_of_exec hexec).trans hfault
    obtain ⟨hrun', -, -⟩ := runAndPortsChangeOnlyByTheirInstructions i s t hexec
    by_cases hhlt : i = .hlt
    · rw [if_pos hhlt] at hrun'
      exact .inr (.inl ⟨⟨hrun', hfault'⟩, hhlt ▸ hd⟩)
    · rw [if_neg hhlt, hrun] at hrun'
      exact .inl ⟨hrun', hfault'⟩
  · exact .inr (.inr ⟨opcode, s.pc, rfl, hrun⟩)

/-! ### The invariant -/

/-- Executing an instruction leaves the flags true of `A`, or leaves `A` and both flags as they were. -/
theorem flags_after_exec {i : Instr} {s t : State} (h : exec i s = .next t) :
    t.flagsFollowA ∨ (t.a = s.a ∧ t.sign = s.sign ∧ t.zero = s.zero) := by
  cases effect_of_exec h with
  | writeA | taken => exact .inl ⟨rfl, rfl⟩
  | _ => exact .inr ⟨rfl, rfl, rfl⟩

/-- So does a step: the decode error writes neither. -/
theorem flags_after_step {s t : State} (h : step s = .next t) :
    t.flagsFollowA ∨ (t.a = s.a ∧ t.sign = s.sign ∧ t.zero = s.zero) := by
  obtain ⟨-, -, ⟨i, -, hexec⟩ | ⟨opcode, -, rfl⟩⟩ := stepWith_next h
  · exact flags_after_exec hexec
  · exact .inr ⟨rfl, rfl, rfl⟩

/-- Settles O54. -/
theorem flagsFollowTheAccumulatorOnceWritten : Obligations.FlagsFollowTheAccumulatorOnceWritten := by
  refine ⟨fun i s t hl hin h => flagsFollowA_of_flagAffecting hl hin h, fun s t hs h => ?_, by decide⟩
  rcases flags_after_step h with hfollow | ⟨ha, hsign, hzero⟩
  · exact hfollow
  · rwa [State.flagsFollowA, ha, hsign, hzero]

/-- An instruction keeps the canonical form of memory: both of its writes are at addresses that exist. -/
theorem wf_of_exec {i : Instr} {s t : State} (hm : Memory.wf s.mem) (h : exec i s = .next t) :
    Memory.wf t.mem := by
  cases effect_of_exec h with
  | store p => exact wf_memWrite8 p s.a hm
  | link p => exact wf_writeLink (pcPlus s.pc 3) hm
  | _ => exact hm

/-- An instruction adds no event on another port than 3. -/
theorem outputsOnPort3_of_exec {i : Instr} {s t : State} (ho : s.outputsOnPort3) (h : exec i s = .next t) :
    t.outputsOnPort3 := by
  obtain ⟨-, -, hout⟩ := runAndPortsChangeOnlyByTheirInstructions i s t h
  rw [State.outputsOnPort3, hout]
  split
  · exact List.forall_mem_append.2 ⟨ho, List.forall_mem_singleton.2 rfl⟩
  · exact ho

theorem faultRecorded_of_none {s : State} (h : s.fault = none) : s.faultRecorded = true := by
  rw [State.faultRecorded, h]

/-- The record the decode error makes is true of the state it is made in (R160). -/
theorem faultRecorded_raiseDecodeError {s : State} {opcode : Byte} (hrun : s.run = .running)
    (hd : decode (fetchWindow s) = .error (.unassignedOpcode opcode)) :
    (raiseDecodeError s opcode).faultRecorded = true := by
  obtain ⟨hunassigned, rfl⟩ := decode_eq_error_iff.1 hd
  have hfind : OpcodeMap.find opcodeMap (fetchWindow s).b0 = none :=
    OpcodeMap.find_none.2 fun m => hunassigned m (Mnemonic.mem_all m)
  have hrecord : (raiseDecodeError s (fetchWindow s).b0).faultRecorded =
      (s.run == .running && s.pc == s.pc && (fetchWindow s).b0 == (fetchWindow s).b0 &&
        (OpcodeMap.find opcodeMap (fetchWindow s).b0).isNone) := rfl
  rw [hrecord, hrun, hfind]
  simp

/-- Settles O52: an instruction keeps each part and leaves `FAULT` none; the decode error writes `FAULT` only,
and truly. -/
theorem everyStepKeepsTheInvariant : Obligations.EveryStepKeepsTheInvariant := by
  rintro s t ⟨hmem, -, hout, hflags⟩ hnext
  have hflags' : t.flagsFollowA ∨ t.flagsAtReset := by
    rcases flags_after_step hnext with hfollow | ⟨ha, hsign, hzero⟩
    · exact .inl hfollow
    · rwa [State.flagsFollowA, State.flagsAtReset, ha, hsign, hzero]
  obtain ⟨hfault, hrun, ⟨i, -, hexec⟩ | ⟨opcode, hd, rfl⟩⟩ := stepWith_next hnext
  · exact ⟨wf_of_exec hmem hexec, faultRecorded_of_none ((fault_eq_of_exec hexec).trans hfault),
      outputsOnPort3_of_exec hout hexec, hflags'⟩
  · exact ⟨hmem, faultRecorded_raiseDecodeError hrun hd, hout, hflags'⟩

/-- Settles O53. -/
theorem invariantHoldsAfterReset : Obligations.InvariantHoldsAfterReset := by
  exact ⟨wf_reset, faultRecorded_of_none rfl, List.forall_mem_nil _, .inr ⟨rfl, rfl, rfl⟩⟩

/-! ### The environment (R146, R165) -/

/-- Settles O46: no operand and no condition names the input. -/
theorem onlyInputReadsTheEnvironment : Obligations.OnlyInputReadsTheEnvironment := by
  intro i s t input hin h
  cases i with
  | inPort => exact absurd rfl hin
  | outPort port =>
    cases (exec_outPort_eq_setOutput port s).symm.trans h
    exact exec_outPort_eq_setOutput port (s.setInput input)
  | jz p =>
    cases (exec_jz p s).symm.trans h
    exact exec_jz p (s.setInput input)
  | jnz p =>
    cases (exec_jnz p s).symm.trans h
    exact exec_jnz p (s.setInput input)
  | jm p =>
    cases (exec_jm p s).symm.trans h
    exact exec_jm p (s.setInput input)
  | _ =>
    cases h
    rfl

end Sys2Proof.Machine

/-! The statements about single instructions (40_alu.md, 41_move_load_store.md, 43_io_misc.md): the meaning of
each shape in the terms of the statements, then the arithmetic and the bits of each operation. -/

namespace Sys2Proof.Machine

/-! ### The shapes of meaning in the terms of the statements -/

theorem pcPlus_eq_pcAfter (s : State) (count : Nat) : pcPlus s.pc count = pcAfter s count := by
  apply BitVec.eq_of_toNat_eq
  rw [pcPlus_toNat, pcAfter, BitVec.toNat_ofNat, Nat.mod_mod]

theorem signOf_eq_decide (v : Byte) : signOf v = decide (128 ≤ v.toNat) := by
  rw [Bool.eq_iff_iff, signOf_iff, decide_eq_true_iff]

theorem zeroOf_eq_decide_toNat (v : Byte) : zeroOf v = decide (v.toNat = 0) := by
  rw [zeroOf_eq_decide, decide_eq_decide, ← BitVec.toNat_inj]
  rfl

/-- Writing `A` and advancing PC is `afterAcc`. -/
theorem writeAcc_advance (s : State) (v : Byte) (count : Nat) :
    (writeAcc s v).advance count = afterAcc s v count := by
  rw [afterAcc, ← pcPlus_eq_pcAfter, ← signOf_eq_decide, ← zeroOf_eq_decide_toNat]
  rfl

theorem accBinary_eq_afterAcc (f : Byte → Byte → Byte) (src : Operand) (count : Nat) (s : State) :
    accBinary f src count s = .next (afterAcc s (f s.a (src.read s)) count) := by
  rw [accBinary_eq, writeAcc_advance]

theorem accUnary_eq_afterAcc (f : Byte → Byte) (s : State) :
    accUnary f s = .next (afterAcc s (f s.a) 1) := by
  rw [accUnary_eq, writeAcc_advance]

theorem accLoad_eq_afterAcc (src : Operand) (count : Nat) (s : State) :
    accLoad src count s = .next (afterAcc s (src.read s) count) := by
  rw [accLoad_eq, writeAcc_advance]

theorem setReg_b_advance (s : State) (v : Byte) (count : Nat) :
    (s.setReg .b v).advance count = { s with b := v, pc := pcAfter s count } := by
  rw [← pcPlus_eq_pcAfter]
  rfl

theorem setReg_c_advance (s : State) (v : Byte) (count : Nat) :
    (s.setReg .c v).advance count = { s with c := v, pc := pcAfter s count } := by
  rw [← pcPlus_eq_pcAfter]
  rfl

/-! ### Arithmetic modulo 256 (R80 to R83, R93 to R99) -/

theorem eq_ofNat_of_toNat_eq {v : Byte} {n : Nat} (h : v.toNat = n) : v = BitVec.ofNat 8 n := by
  rw [← h, BitVec.ofNat_toNat, BitVec.setWidth_eq]

theorem aluAdd_eq_ofNat (x y : Byte) : aluAdd x y = BitVec.ofNat 8 ((x.toNat + y.toNat) % 256) :=
  eq_ofNat_of_toNat_eq (aluAdd_toNat x y)

theorem aluSub_eq_ofNat (x y : Byte) : aluSub x y = BitVec.ofNat 8 ((x.toNat + (256 - y.toNat)) % 256) :=
  eq_ofNat_of_toNat_eq (aluSub_toNat x y)

theorem aluInc_eq_ofNat (x : Byte) : aluInc x = BitVec.ofNat 8 ((x.toNat + 1) % 256) :=
  aluAdd_eq_ofNat x 0x01#8

theorem aluDec_eq_ofNat (x : Byte) : aluDec x = BitVec.ofNat 8 ((x.toNat + 255) % 256) :=
  aluSub_eq_ofNat x 0x01#8

theorem aluNot_eq_ofNat (x : Byte) : aluNot x = BitVec.ofNat 8 (255 - x.toNat) :=
  eq_ofNat_of_toNat_eq (BitVec.toNat_not (x := x))

/-- Settles O14. -/
theorem addAndSubtractCWriteModulo256 : Obligations.AddAndSubtractCWriteModulo256 := by
  intro s
  rw [← aluAdd_eq_ofNat, ← aluAdd_eq_ofNat, ← aluSub_eq_ofNat]
  exact ⟨accBinary_eq_afterAcc aluAdd (.reg .b) 1 s, accBinary_eq_afterAcc aluAdd (.reg .c) 1 s,
    accBinary_eq_afterAcc aluSub (.reg .c) 1 s⟩

/-- Settles O20. -/
theorem complementAndUnitStepsOfA : Obligations.ComplementAndUnitStepsOfA := by
  intro s
  rw [← aluNot_eq_ofNat, ← aluInc_eq_ofNat, ← aluDec_eq_ofNat]
  exact ⟨accUnary_eq_afterAcc aluNot s, accUnary_eq_afterAcc aluInc s, accUnary_eq_afterAcc aluDec s⟩

/-- Settles O21. -/
theorem unitStepsOfBAndCKeepTheFlags : Obligations.UnitStepsOfBAndCKeepTheFlags := by
  intro s
  simp only [← aluInc_eq_ofNat, ← aluDec_eq_ofNat, ← setReg_b_advance, ← setReg_c_advance]
  exact ⟨rfl, rfl, rfl, rfl⟩

/-! ### Bitwise operations (R84 to R92) -/

/-- Settles O16. -/
theorem andActsOnEveryBit : Obligations.AndActsOnEveryBit :=
  fun s _ => ⟨_, _, _, accBinary_eq_afterAcc aluAnd _ 1 s, accBinary_eq_afterAcc aluAnd _ 1 s,
    accBinary_eq_afterAcc aluAnd _ 2 s, fun _ _ => ⟨BitVec.getLsbD_and, BitVec.getLsbD_and, BitVec.getLsbD_and⟩⟩

/-- Settles O17. -/
theorem orActsOnEveryBit : Obligations.OrActsOnEveryBit :=
  fun s _ => ⟨_, _, _, accBinary_eq_afterAcc aluOr _ 1 s, accBinary_eq_afterAcc aluOr _ 1 s,
    accBinary_eq_afterAcc aluOr _ 2 s, fun _ _ => ⟨BitVec.getLsbD_or, BitVec.getLsbD_or, BitVec.getLsbD_or⟩⟩

/-- Settles O18: `XRI` is encoded in 2 bytes and advances by 1. -/
theorem exclusiveOrActsOnEveryBit : Obligations.ExclusiveOrActsOnEveryBit :=
  fun s _ => ⟨_, _, _, accBinary_eq_afterAcc aluXor _ 1 s, accBinary_eq_afterAcc aluXor _ 1 s,
    accBinary_eq_afterAcc aluXor _ 1 s, rfl,
    fun _ _ => ⟨BitVec.getLsbD_xor, BitVec.getLsbD_xor, BitVec.getLsbD_xor⟩⟩

/-! ### Moves, loads, input and NOP (R110 to R119, R140, R142) -/

/-- Settles O22. -/
theorem movesToALatchTheFlags : Obligations.MovesToALatchTheFlags :=
  fun s => ⟨accLoad_eq_afterAcc (.reg .b) 1 s, accLoad_eq_afterAcc (.reg .c) 1 s⟩

/-- Settles O23. -/
theorem movesToBAndCKeepTheFlags : Obligations.MovesToBAndCKeepTheFlags := by
  intro s op8
  simp only [← setReg_b_advance, ← setReg_c_advance]
  exact ⟨rfl, rfl, rfl, rfl, rfl⟩

/-- Settles O26. -/
theorem loadReadsTheByteAtItsAddress : Obligations.LoadReadsTheByteAtItsAddress :=
  fun s op16 => accLoad_eq_afterAcc (.direct op16) 3 s

/-- Settles O32. -/
theorem inputTakesTheOldestSuppliedByte : Obligations.InputTakesTheOldestSuppliedByte := by
  intro s port v rest hsupplied
  rw [exec_inPort_cons port hsupplied, writeAcc_advance]
  rfl

/-- Settles O35. -/
theorem noOperationOnlyAdvancesPc : Obligations.NoOperationOnlyAdvancesPc := by
  intro s
  rw [← pcPlus_eq_pcAfter]
  rfl

/-! ### Rotates (R143, R144) -/

/-- Rotating left moves bit `i - 1`, modulo 8, to bit `i`. -/
theorem getLsbD_rotLeft (x : Byte) {i : Nat} (hi : i < 8) :
    (rotLeft x).getLsbD i = x.getLsbD ((i + 7) % 8) := by
  rw [rotLeft, BitVec.getLsbD_or, BitVec.getLsbD_shiftLeft, BitVec.getLsbD_ushiftRight]
  rcases Nat.eq_zero_or_pos i with rfl | hpos
  · simp
  · have hprev : (i + 7) % 8 = i - 1 := by omega
    simp [hprev, hi, hpos.ne', BitVec.getLsbD_of_ge x (7 + i) (by omega)]

/-- Rotating right moves bit `i + 1`, modulo 8, to bit `i`. -/
theorem getLsbD_rotRight (x : Byte) {i : Nat} (hi : i < 8) :
    (rotRight x).getLsbD i = x.getLsbD ((i + 1) % 8) := by
  rw [rotRight, BitVec.getLsbD_or, BitVec.getLsbD_shiftLeft, BitVec.getLsbD_ushiftRight, BitVec.getLsbD_and]
  rcases Nat.lt_or_ge i 7 with hlt | hge
  · have hnext : (i + 1) % 8 = 1 + i := by omega
    simp [hnext, hlt]
  · obtain rfl : i = 7 := by omega
    simp

/-- Settles O36: both rotates bit by bit. -/
theorem rotatesMoveEveryBitByOne : Obligations.RotatesMoveEveryBitByOne := by
  refine fun s => ⟨rotLeft s.a, rotRight s.a, accUnary_eq_afterAcc rotLeft s, accUnary_eq_afterAcc rotRight s,
    getLsbD_rotLeft s.a (by decide), getLsbD_rotRight s.a (by decide), fun k hk => ⟨?_, ?_⟩⟩
  · rw [getLsbD_rotLeft s.a (by omega), show (k + 1 + 7) % 8 = k by omega]
  · rw [getLsbD_rotRight s.a (by omega), show (k + 1) % 8 = k + 1 by omega]

theorem getLsbD_iterate_rotLeft (n : Nat) (x : Byte) {i : Nat} (hi : i < 8) :
    (rotLeft^[n] x).getLsbD i = x.getLsbD ((i + 7 * n) % 8) := by
  induction n generalizing x with
  | zero => rw [Nat.mul_zero, Nat.add_zero, Nat.mod_eq_of_lt hi, Function.iterate_zero, id]
  | succ n ih =>
    rw [Function.iterate_succ_apply, ih, getLsbD_rotLeft x (Nat.mod_lt _ (by decide))]
    congr 1
    omega

theorem getLsbD_iterate_rotRight (n : Nat) (x : Byte) {i : Nat} (hi : i < 8) :
    (rotRight^[n] x).getLsbD i = x.getLsbD ((i + n) % 8) := by
  induction n generalizing x with
  | zero => rw [Nat.add_zero, Nat.mod_eq_of_lt hi, Function.iterate_zero, id]
  | succ n ih =>
    rw [Function.iterate_succ_apply, ih, getLsbD_rotRight x (Nat.mod_lt _ (by decide))]
    congr 1
    omega

/-- Eight rotates left are a whole turn. -/
theorem iterate_rotLeft_eight (x : Byte) : rotLeft^[8] x = x := by
  refine BitVec.eq_of_getLsbD_eq fun i hi => ?_
  rw [getLsbD_iterate_rotLeft 8 x hi, show (i + 7 * 8) % 8 = i by omega]

theorem iterate_rotRight_eight (x : Byte) : rotRight^[8] x = x := by
  refine BitVec.eq_of_getLsbD_eq fun i hi => ?_
  rw [getLsbD_iterate_rotRight 8 x hi, show (i + 8) % 8 = i by omega]

theorem rotRight_rotLeft (x : Byte) : rotRight (rotLeft x) = x := by
  refine BitVec.eq_of_getLsbD_eq fun i hi => ?_
  rw [getLsbD_rotRight _ hi, getLsbD_rotLeft _ (Nat.mod_lt _ (by decide)),
    show ((i + 1) % 8 + 7) % 8 = i by omega]

/-! ### Programs that only rewrite A -/

/-- From every state the program completes with `f` applied to `A`, the flags of the result, and `B` and `C`
as before. -/
def RewritesA (body : List Instr) (f : Byte → Byte) : Prop :=
  ∀ s, ∃ t, execList body s = some t ∧ t.a = f s.a ∧ t.flagsFollowA ∧ t.b = s.b ∧ t.c = s.c

theorem execList_cons {i : Instr} {s t : State} (h : exec i s = .next t) (rest : List Instr) :
    execList (i :: rest) s = execList rest t := by
  rw [execList, h]

theorem RewritesA.single {i : Instr} {f : Byte → Byte} (hi : ∀ s, exec i s = accUnary f s) :
    RewritesA [i] f :=
  fun s => ⟨_, execList_cons (hi s) [], rfl, ⟨rfl, rfl⟩, rfl, rfl⟩

theorem RewritesA.cons {i : Instr} {f g : Byte → Byte} {body : List Instr}
    (hi : ∀ s, exec i s = accUnary f s) (h : RewritesA body g) : RewritesA (i :: body) (g ∘ f) := by
  intro s
  obtain ⟨t, hrun, ha, hflags, hb, hc⟩ := h ((writeAcc s (f s.a)).advance 1)
  exact ⟨t, (execList_cons (hi s) body).trans hrun, ha, hflags, hb, hc⟩

theorem RewritesA.replicate {i : Instr} {f : Byte → Byte} (hi : ∀ s, exec i s = accUnary f s) (n : Nat) :
    RewritesA (List.replicate (n + 1) i) f^[n + 1] := by
  induction n with
  | zero => exact .single hi
  | succ n ih => exact .cons hi ih

/-- Settles O38: each of the four programs rewrites `A` by a function that is the identity. -/
theorem complementAndRotateRoundTrips : Obligations.ComplementAndRotateRoundTrips := by
  intro s body hbody
  have hid : ∃ f, RewritesA body f ∧ ∀ x, f x = x := by
    simp only [List.mem_cons, List.not_mem_nil, or_false] at hbody
    rcases hbody with rfl | rfl | rfl | rfl
    · exact ⟨_, .cons (f := aluNot) (fun _ => rfl) (.single (f := aluNot) fun _ => rfl), fun _ => BitVec.not_not⟩
    · exact ⟨_, .replicate (f := rotLeft) (fun _ => rfl) 7, iterate_rotLeft_eight⟩
    · exact ⟨_, .replicate (f := rotRight) (fun _ => rfl) 7, iterate_rotRight_eight⟩
    · exact ⟨_, .cons (f := rotLeft) (fun _ => rfl) (.single (f := rotRight) fun _ => rfl), rotRight_rotLeft⟩
  obtain ⟨f, hrewrites, hf⟩ := hid
  obtain ⟨t, hrun, ha, hrest⟩ := hrewrites s
  exact ⟨t, hrun, ha.trans (hf s.a), hrest⟩

end Sys2Proof.Machine

/-! The statements about stores, control transfer and PC (20_memory.md, 41_move_load_store.md,
42_control_transfer.md, 10_state.md R14 to R16). -/

namespace Sys2Proof.Machine

/-! ### Stores (R120) and the link cell (R129, R130, R132) -/

/-- Every byte of memory after a `STA`. -/
theorem read_of_exec_sta {p : Word} {s t : State} (h : exec (.sta p) s = .next t) (x : Nat) :
    Memory.read t.mem x = if x = p.toNat then s.a else Memory.read s.mem x := by
  cases (exec_sta p s).symm.trans h
  rw [advance_eq, setPc_mem, read_memWrite8]

/-- Every byte of memory after a `CALL`. -/
theorem read_of_exec_call {p : Word} {s t : State} (h : exec (.call p) s = .next t) (x : Nat) :
    Memory.read t.mem x = if x = 0xFFFF then hiByte (pcAfter s 3) else if x = 0xFFFE then loByte (pcAfter s 3)
      else Memory.read s.mem x := by
  cases (exec_call p s).symm.trans h
  rw [setPc_mem, read_writeLink, pcPlus_eq_pcAfter]

theorem pcAfter_toNat (s : State) (count : Nat) : (pcAfter s count).toNat = (s.pc.toNat + count) % 65536 := by
  rw [← pcPlus_eq_pcAfter, pcPlus_toNat]

/-- Settles O27. -/
theorem storeWritesOneByteOnly : Obligations.StoreWritesOneByteOnly := by
  intro s op16
  have hread := read_of_exec_sta (exec_sta op16 s)
  refine ⟨_, exec_sta op16 s, (hread _).trans (if_pos rfl), rfl, fun x hx => (hread x).trans (if_neg hx), ?_⟩
  rw [advance_eq, ← pcPlus_eq_pcAfter]
  rfl

/-- Settles O29. -/
theorem callStoresTheReturnAddressInTheLinkCell : Obligations.CallStoresTheReturnAddressInTheLinkCell := by
  intro s op16
  have hread := read_of_exec_call (exec_call op16 s)
  refine ⟨_, exec_call op16 s, ?low, ?high, fun x hlow hhigh => ?frame, rfl, rfl⟩
  case low => rw [hread, if_neg (by decide), if_pos linkAddr_toNat, loByte_toNat, pcAfter_toNat]
  case high => rw [hread, if_pos (by decide), hiByte_toNat, pcAfter_toNat]
  case frame => exact (hread x).trans ((if_neg hhigh).trans (if_neg hlow))

/-- `RET` jumps to the address the link cell holds (R130). -/
theorem exec_ret (s : State) : exec .ret s = .next (s.setPc (readLink s)) := rfl

theorem readLink_toNat (s : State) :
    (readLink s).toNat = (Memory.read s.mem 0xFFFE).toNat + 256 * (Memory.read s.mem 0xFFFF).toNat := by
  rw [readLink_eq, wordOf_toNat]

/-- Settles O30. -/
theorem returnJumpsToTheLinkCell : Obligations.ReturnJumpsToTheLinkCell := by
  intro s
  rw [exec_ret, ← readLink_toNat, BitVec.ofNat_toNat, BitVec.setWidth_eq]
  rfl

/-- After a `CALL` the link cell holds the address after it. -/
theorem readLink_of_exec_call {p : Word} {s t : State} (h : exec (.call p) s = .next t) :
    readLink t = pcAfter s 3 := by
  rw [readLink_eq, read_of_exec_call h, read_of_exec_call h, if_pos rfl, if_neg (by decide), if_pos rfl,
    wordOf_hiByte_loByte]

/-- The first instruction of a program that completes answers a next state, from which the rest completes. -/
theorem exists_of_execList_cons {i : Instr} {rest : List Instr} {s u : State}
    (h : execList (i :: rest) s = some u) : ∃ t, exec i s = .next t ∧ execList rest t = some u := by
  obtain ⟨t, hexec⟩ := exec_answers_next i s
  exact ⟨t, hexec, (execList_cons hexec rest).symm.trans h⟩

/-- A program leaves every byte that none of its instructions stores to. -/
theorem read_of_execList {x : Nat} {body : List Instr} {s u : State}
    (hx : ∀ i ∈ body, x ∉ storedAddresses i) (h : execList body s = some u) :
    Memory.read u.mem x = Memory.read s.mem x := by
  induction body generalizing s with
  | nil =>
    cases h
    rfl
  | cons i rest ih =>
    obtain ⟨t, hexec, hrest⟩ := exists_of_execList_cons h
    calc Memory.read u.mem x = Memory.read t.mem x := ih (fun j hj => hx j (List.mem_cons_of_mem _ hj)) hrest
      _ = Memory.read s.mem x := everyByteNotStoredToIsUnchanged i s t hexec x (hx i List.mem_cons_self)

/-- Settles O31: the body leaves both bytes of the link cell, so it still holds what the `CALL` wrote. -/
theorem returnGoesToTheLastCall : Obligations.ReturnGoesToTheLastCall := by
  intro s t u op16 body hcall hbody hrun
  have hlow := read_of_execList (fun i hi hx => (hbody i hi _ hx).1 rfl) hrun
  have hhigh := read_of_execList (fun i hi hx => (hbody i hi _ hx).2 rfl) hrun
  have hlink : readLink u = pcAfter s 3 := by
    rw [readLink_eq, hlow, hhigh, ← readLink_eq, readLink_of_exec_call hcall]
  have hagain : readLink { u with pc := pcAfter s 3 } = pcAfter s 3 := hlink
  rw [exec_ret, exec_ret, hlink, hagain]
  exact ⟨rfl, rfl⟩

/-! ### Loads and fetches after stores (R55) -/

/-- Settles O47. -/
theorem loadSeesTheMostRecentStore : Obligations.LoadSeesTheMostRecentStore := by
  intro s p q
  have hrun := (execList_cons (exec_sta p s) [.lda q]).trans
    (execList_cons (loadReadsTheByteAtItsAddress _ q) [])
  refine ⟨_, hrun, (read_of_exec_sta (exec_sta p s) q.toNat).trans ?_⟩
  exact if_congr BitVec.toNat_inj rfl rfl

/-- Settles O48. -/
theorem fetchSeesEveryStore : Obligations.FetchSeesEveryStore := by
  intro s t p x
  refine ⟨fun h => ?sta, fun h => ?call, fun i _ hx => ⟨fetchByte_padding s hx, fetchByte_padding t hx⟩⟩
  case sta =>
    rcases Nat.lt_or_ge x 65536 with hlow | hhigh
    · rw [fetchByte_low t hlow, fetchByte_low s hlow, read_of_exec_sta h]
    · have hne : x ≠ p.toNat := (Nat.lt_of_lt_of_le p.isLt hhigh).ne'
      rw [if_neg hne, fetchByte_padding s hhigh, fetchByte_padding t hhigh]
  case call =>
    rcases Nat.lt_or_ge x 65536 with hlow | hhigh
    · rw [fetchByte_low t hlow, fetchByte_low s hlow, read_of_exec_call h]
      split_ifs
      · omega
      all_goals rfl
    · rw [if_neg (by omega), if_neg (by omega), fetchByte_padding s hhigh, fetchByte_padding t hhigh]

/-! ### PC (R14 to R16) -/

/-- Settles O28. -/
theorem jumpsReplaceOrAdvancePc : Obligations.JumpsReplaceOrAdvancePc := by
  intro s op16
  rw [exec_jz, exec_jnz, exec_jm, pcPlus_eq_pcAfter]
  have hcond : (if !s.zero then op16 else pcAfter s 3) = if s.zero = false then op16 else pcAfter s 3 :=
    if_congr (iff_of_eq (Bool.not_eq_true' s.zero)) rfl rfl
  rw [← hcond]
  exact ⟨rfl, rfl, rfl, rfl⟩

/-- `JNZ` goes on at PC + 3 when Z is set (R127). -/
theorem exec_jnz_eq_fallthrough (p : Word) (s : State) :
    exec (.jnz p) s = .next (s.setPc (if s.zero then pcPlus s.pc 3 else p)) := by
  rw [exec_jnz]
  cases s.zero <;> rfl

/-- Settles O45: column "PC" row by row. -/
theorem pcAdvancesOrIsOverwrittenAsTheTableSays : Obligations.PcAdvancesOrIsOverwrittenAsTheTableSays := by
  intro i s t h hin
  cases i with
  | nop | inrA | inrB | inrC | dcrA | dcrB | dcrC | ral | rar | cma | movAB | movAC | movBA | movBC | movCA
  | movCB | addB | addC | subB | subC | anaB | anaC | oraB | oraC | xraB | xraC | hlt
  | mviA | mviB | mviC | ani | ori | xri | lda | sta =>
    cases h
    exact ⟨pcPlus_toNat s.pc _, rfl⟩
  | outPort port =>
    cases (exec_outPort_eq_setOutput port s).symm.trans h
    exact ⟨pcPlus_toNat s.pc 2, rfl⟩
  | inPort port =>
    obtain ⟨v, rest, hsupplied⟩ := List.exists_cons_of_ne_nil (hin rfl)
    cases (exec_inPort_cons port hsupplied).symm.trans h
    exact ⟨pcPlus_toNat s.pc 2, rfl⟩
  | jmp | call =>
    cases h
    rfl
  | ret =>
    cases h
    exact readLink_toNat s
  | jz p =>
    cases (exec_jz p s).symm.trans h
    exact congrArg (if s.zero then p else ·) (pcPlus_eq_pcAfter s 3)
  | jnz p =>
    cases (exec_jnz_eq_fallthrough p s).symm.trans h
    exact congrArg (if s.zero then · else p) (pcPlus_eq_pcAfter s 3)
  | jm p =>
    cases (exec_jm p s).symm.trans h
    exact congrArg (if s.sign then p else ·) (pcPlus_eq_pcAfter s 3)

/-! ### The canonical form is unique -/

/-- An address below every entry reads as an unlisted one. -/
theorem Memory.read_of_below {m : Memory} {addr : Nat} (h : ∀ cell ∈ m, addr < cell.1) :
    Memory.read m addr = unlistedByte addr := by
  induction m with
  | nil => rfl
  | cons cell rest ih =>
    rw [Memory.read_cons, if_neg (h cell List.mem_cons_self).ne',
      ih fun c hc => h c (List.mem_cons_of_mem _ hc)]

/-- The address of a canonical memory's first entry reads otherwise in a memory that lists only higher ones. -/
theorem Memory.read_head_ne {m n : Memory} {cell : Host.Cell} (hwf : Memory.wf (cell :: m))
    (hn : ∀ c ∈ n, cell.1 < c.1) : Memory.read (cell :: m) cell.1 ≠ Memory.read n cell.1 := by
  obtain ⟨-, hlisted⟩ := hwf
  rw [Memory.read_cons, if_pos rfl, Memory.read_of_below hn]
  exact (hlisted cell List.mem_cons_self).2

theorem Memory.wf_cons {cell : Host.Cell} {m : Memory} (h : Memory.wf (cell :: m)) :
    (∀ c ∈ m, cell.1 < c.1) ∧ Memory.wf m := by
  obtain ⟨hrising, hlisted⟩ := h
  obtain ⟨habove, hrest⟩ := List.pairwise_cons.1 hrising
  exact ⟨habove, hrest, fun c hc => hlisted c (List.mem_cons_of_mem _ hc)⟩

/-- If the first entry of a canonical memory lies below that of another, its address reads differently. -/
theorem Memory.read_ne_of_head_lt {m n : Memory} {x y : Host.Cell} (hm : Memory.wf (x :: m))
    (hn : Memory.wf (y :: n)) (hlt : x.1 < y.1) :
    Memory.read (x :: m) x.1 ≠ Memory.read (y :: n) x.1 := by
  refine Memory.read_head_ne hm fun c hc => ?_
  rcases List.mem_cons.1 hc with rfl | hc
  · exact hlt
  · exact hlt.trans ((Memory.wf_cons hn).1 c hc)

/-- Settles O51, by induction on both lists: the first entries agree, and below them neither rest lists
anything. -/
theorem canonicalMemoriesWithEqualBytesAreEqual : Obligations.CanonicalMemoriesWithEqualBytesAreEqual := by
  intro m
  induction m with
  | nil =>
    intro n _ hn hread
    cases n with
    | nil => rfl
    | cons y n => exact absurd (hread y.1).symm (Memory.read_head_ne hn (List.forall_mem_nil _))
  | cons x m ih =>
    intro n hm hn hread
    cases n with
    | nil => exact absurd (hread x.1) (Memory.read_head_ne hm (List.forall_mem_nil _))
    | cons y n =>
      have haddr : x.1 = y.1 := by
        rcases Nat.lt_trichotomy x.1 y.1 with hlt | heq | hgt
        · exact absurd (hread x.1) (Memory.read_ne_of_head_lt hm hn hlt)
        · exact heq
        · exact absurd (hread y.1).symm (Memory.read_ne_of_head_lt hn hm hgt)
      have hcell : x = y := by
        have hbyte := hread x.1
        rw [Memory.read_cons, Memory.read_cons, if_pos rfl, if_pos haddr.symm] at hbyte
        exact Prod.ext haddr hbyte
      subst hcell
      obtain ⟨hmabove, hmwf⟩ := Memory.wf_cons hm
      obtain ⟨hnabove, hnwf⟩ := Memory.wf_cons hn
      refine congrArg (x :: ·) (ih n hmwf hnwf fun addr => ?_)
      by_cases hhead : x.1 = addr
      · subst hhead
        rw [Memory.read_of_below hmabove, Memory.read_of_below hnabove]
      · have hrest := hread addr
        rwa [Memory.read_cons, Memory.read_cons, if_neg hhead, if_neg hhead] at hrest

end Sys2Proof.Machine

/-! The statements about runs (70_reset_and_hazards.md, 43_io_misc.md): reset and loading, the first step, the
`XRI` quirk, the held `IN`, and the machine in empty memory. -/

namespace Sys2Proof.Machine

/-! ### Reset and the Loader (R180 to R184) -/

/-- Settles O56. -/
theorem resetValuesTheSpecDecides : Obligations.ResetValuesTheSpecDecides := by
  exact ⟨⟨rfl, rfl, rfl, rfl, rfl⟩, fun _ => rfl⟩

theorem loadProgram_of_not_imageWf {bytes : List Byte} (h : ¬ imageWf bytes) (s : State) :
    loadProgram bytes s = none := if_neg h

/-- Every byte of memory after an accepted image is loaded. -/
theorem read_storeBytes_image {bytes : List Byte} (h : imageWf bytes) (m : Memory) (x : Nat) :
    Memory.read (Memory.storeBytes m 0 bytes) x =
      if x < bytes.length then bytes.getD x 0x00#8 else Memory.read m x := by
  rw [Memory.read_storeBytes]
  refine if_congr ⟨fun hx => ?_, fun hx => ?_⟩ rfl rfl
  · omega
  · exact ⟨Nat.zero_le x, by omega, Nat.lt_of_lt_of_le hx h⟩

/-- Loading reads and writes memory only, so the start address may be set before it or after it. -/
theorem loadProgram_setPc (bytes : List Byte) (start : Word) (s : State) :
    (loadProgram bytes s).map (fun t => t.setPc start) = loadProgram bytes (s.setPc start) := by
  by_cases h : imageWf bytes
  · rw [loadProgram_of_imageWf h, loadProgram_of_imageWf h]
    rfl
  · rw [loadProgram_of_not_imageWf h, loadProgram_of_not_imageWf h]
    rfl

/-- Settles O57. -/
theorem loaderWritesOnlyMemoryAndPc : Obligations.LoaderWritesOnlyMemoryAndPc := by
  refine fun s bytes start => ⟨fun hlen => ?_, fun hlen => loadProgram_of_not_imageWf (Nat.not_le.2 hlen) s, rfl,
    loadProgram_setPc bytes start s⟩
  have hread := read_storeBytes_image (bytes := bytes) hlen s.mem
  exact ⟨_, loadProgram_of_imageWf hlen s, rfl, fun x hx => (hread x).trans (if_pos hx),
    fun x hx => (hread x).trans (if_neg (Nat.not_lt.2 hx))⟩

/-- Booting with an accepted image leaves the reset state with the image in memory and PC at the start. -/
theorem boot_of_imageWf {bytes : List Byte} (h : imageWf bytes) (start : Word) (s : State) :
    boot bytes start s = some (((hostReset s).setMem (Memory.storeBytes [] 0 bytes)).setPc start) := by
  rw [boot, loadProgram_of_imageWf h]
  rfl

/-- What stands in the middle of a list, read from where it begins. -/
theorem getD_append_middle {front middle rest : List Byte} {k : Nat} (hk : k < middle.length) (d : Byte) :
    (front ++ middle ++ rest).getD (front.length + k) d = middle.getD k d := by
  rw [List.append_assoc, List.getD_append_right _ _ _ _ (Nat.le_add_right _ _), Nat.add_sub_cancel_left,
    List.getD_append _ _ _ _ hk]

/-- Settles O58: the image's bytes at the start address are the instruction's encoding. -/
theorem bootRunsTheInstructionAtTheStart : Obligations.BootRunsTheInstructionAtTheStart := by
  intro s front rest i start hstart hlen
  refine ⟨_, boot_of_imageWf hlen start s, rfl, stepRunsTheEncodedInstruction _ i ⟨rfl, rfl⟩ fun k hk => ?_⟩
  rw [setPc_pc, ← hstart]
  have hlow : front.length + k < 65536 := by
    simp only [List.length_append] at hlen
    omega
  calc fetchByte _ (front.length + k)
      = Memory.read (Memory.storeBytes [] 0 (front ++ encode i ++ rest)) (front.length + k) :=
        fetchByte_low _ hlow
    _ = (front ++ encode i ++ rest).getD (front.length + k) 0x00#8 := read_storeBytes_nil hlen _
    _ = (encode i).getD k 0x00#8 := getD_append_middle hk _

/-! ### The operand bytes near the top of memory (R47) -/

/-- Settles O49: the bytes above 0xFFFF are padding. -/
theorem operandsPastTheTopReadZero : Obligations.OperandsPastTheTopReadZero := by
  refine fun s => ⟨fun hpc => ?_, fun hpc => ?_⟩
  · have hb1 : (fetchWindow s).b1 = 0x00#8 := fetchByte_padding s (by rw [hpc]; decide)
    have hb2 : (fetchWindow s).b2 = 0x00#8 := fetchByte_padding s (by rw [hpc]; decide)
    rw [Window.op8, Window.op16, hb1, hb2]
    exact ⟨rfl, rfl⟩
  · have hb1 : (fetchWindow s).b1 = Memory.read s.mem 0xFFFF := by
      rw [fetchWindow, hpc]
      exact fetchByte_low s (addr := 0xFFFF) (by decide)
    have hb2 : (fetchWindow s).b2 = 0x00#8 := fetchByte_padding s (by rw [hpc]; decide)
    rw [Window.op8, Window.op16, wordOf_toNat, hb1, hb2]
    exact ⟨rfl, rfl⟩

/-! ### `XRI` (R66, R92) -/

/-- Settles O19: PC advances onto the operand byte, and memory is as it was. -/
theorem xriOperandByteIsTheNextOpcode : Obligations.XriOperandByteIsTheNextOpcode := by
  intro s op8 hstep htop hopcode hoperand
  have hexec : step s = exec (.xri op8) s := by
    refine stepRunsTheEncodedInstruction s (.xri op8) hstep fun k hk => ?_
    match k, hk with
    | 0, _ => exact hopcode
    | 1, _ => exact hoperand
  have hpc : (pcPlus s.pc 1).toNat = s.pc.toNat + 1 := pcPlus_toNat_of_lt (by omega)
  refine ⟨_, hexec, rfl, hpc, hstep, ?_⟩
  calc fetchByte s (pcPlus s.pc 1).toNat = fetchByte s (s.pc.toNat + 1) := by rw [hpc]
    _ = op8 := hoperand

/-! ### Runs of any length (R140, R199) -/

/-- A run goes on from the next state its first step answers. -/
theorem stepN_succ {s t : State} (h : step s = .next t) (k : Nat) : stepN (k + 1) s = stepN k t := by
  rw [stepN, h]

/-- A step that answers the same state does so for ever. -/
theorem stepN_of_step_self {s : State} (h : step s = .next s) (k : Nat) : stepN k s = .next s := by
  induction k with
  | zero => rfl
  | succ k ih => rw [stepN_succ h, ih]

/-- Settles O33: the held step answers the same state, and a byte supplied is all that the `IN` waits for. -/
theorem inputWithNoByteHoldsForEver : Obligations.InputWithNoByteHoldsForEver := by
  intro s port hstep hd hempty
  refine ⟨stepN_of_step_self ((step_eq_exec hstep hd).trans (exec_inPort_nil port hempty)), fun v => ?_⟩
  have hstep' : step (supplyInput v s) = exec (.inPort port) (supplyInput v s) := step_eq_exec hstep hd
  have hsupplied : (supplyInput v s).input = [v] := by
    rw [supplyInput, setInput_input, hempty, List.nil_append]
  exact ⟨_, hstep'.trans (exec_inPort_cons port hsupplied), rfl, rfl⟩

/-- In empty memory the step is a `NOP` at every PC, the last address included. -/
theorem step_of_mem_nil {s : State} (hstep : s.canStep) (hmem : s.mem = []) : step s = .next (s.advance 1) := by
  refine stepRunsTheEncodedInstruction s .nop hstep fun k hk => ?_
  match k, hk with
  | 0, _ => exact fetchByte_of_mem_nil hmem _

/-- Advances of PC add up, modulo 65536. -/
theorem pcAfter_advance (s : State) (m n : Nat) : pcAfter (s.advance m) n = pcAfter s (m + n) := by
  apply BitVec.eq_of_toNat_eq
  rw [pcAfter_toNat, pcAfter_toNat, advance_eq, setPc_pc, pcPlus_toNat, Nat.mod_add_mod, Nat.add_assoc]

/-- Settles O59, by induction on the number of steps. -/
theorem emptyMemoryIsANopSlide : Obligations.EmptyMemoryIsANopSlide := by
  intro s k hstep hmem
  induction k generalizing s with
  | zero =>
    have hpc : pcAfter s 0 = s.pc := by
      rw [← pcPlus_eq_pcAfter, pcPlus, BitVec.add_zero]
    rw [hpc]
    rfl
  | succ k ih =>
    rw [stepN_succ (step_of_mem_nil hstep hmem), ih (s.advance 1) hstep hmem, pcAfter_advance, Nat.add_comm 1 k]
    rfl

end Sys2Proof.Machine
